-- ==== Sys2Proof/Word.lean ====
section
/-!
DEFINITION. The word types of the MD5 core (spec/00_scope.md rules R2, R8, R10, R11). All values the core computes
on are bytes, 32-bit unsigned words and the 64-bit Length Counter; addition on `Word` and `Dword` is `BitVec`
addition, which wraps modulo 2^32 and 2^64 (R11). Nothing is signed.
-/

namespace Sys2Proof

/-- A `u8` (R12). -/
abbrev Byte := BitVec 8

/-- A `u32`: a word of the chaining state, a message word, a command word (R8, R9). -/
abbrev Word := BitVec 32

/-- A `u64`: the Length Counter and the data word `DIN` (R8, R9). -/
abbrev Dword := BitVec 64

/-- A `u128`: response data `RSP_DATA` (R9). -/
abbrev RspData := BitVec 128

end Sys2Proof
end

