-- ==== Sys2Proof/Config.lean ====
section
/-!
DEFINITION. What is fixed for the hardware: its identity, the response codes, and the one open parameter of the spec,
`LATENCY` (spec/00_scope.md rules R3, R9; spec/60_exceptions.md rule R171; spec/70_reset_and_hazards.md rule R197).
-/

namespace Sys2Proof

/-- The identity string of the hardware (R3). -/
def Config.identity : String := "MD5CORE-1"

/-- `LATENCY`, the one parameter the spec leaves OPEN (R9, R197; 93_implementation_defined.md U12): the time from
accepting a command to its response. It may differ between runs and between commands, so it takes the number of a run
and the number of a command in it; it is finite because it is a natural number. It has no body: nothing can be proved
of its values, and no step reads it (log entry 4). -/
opaque Config.latency : (run command : Nat) → Nat

/-- Error codes (R171): `RSP_CODE` and `STATUS.ECODE` take these values; codes 6 and 7 are never produced. The number
of each is `Code.bits` in Machine/Flags.lean. -/
inductive Code where
  /-- The command was performed. -/
  | ok
  /-- `OP` is 0x5 to 0xF. -/
  | eOpcode
  /-- `RSV` is not 0, or APPEND with `CNT > 8`, or another operation with `CNT` not 0. -/
  | eField
  /-- APPEND in the FINALIZED phase. -/
  | eAppendFinal
  /-- FINALIZE in the FINALIZED phase. -/
  | eFinalTwice
  /-- READ_DIGEST in the ACTIVE phase. -/
  | eReadEarly
  deriving DecidableEq, Repr

end Sys2Proof
end

