-- ==== Sys2Proof/Syntax.lean ====
section
/-!
DEFINITION. The commands of the MD5 core as syntax: one constructor of `Instr` per row of spec/opcode_table.json, and
the command transaction `(CMD, DIN)` that carries one (spec/30_encoding.md rules R60 to R62).
-/

namespace Sys2Proof

/-- One command transaction (R60): the 32-bit command word `CMD` and the 64-bit data word `DIN`. -/
structure Command where
  cmd : Word
  din : Dword
  deriving DecidableEq, Repr

/-- The five commands (R62). Only APPEND has operands: its count field `CNT`, four bits wide, and the data word
`DIN`, whose lanes are the bytes (R42, R63). Every other command ignores `DIN` (R65), so it carries none. -/
inductive Instr where
  /-- STATUS: read the status register (R115). -/
  | status
  /-- INIT: construct a fresh stream (R113). -/
  | init
  /-- APPEND: add `n` bytes, the first `n` lanes of `din` (R114). -/
  | append (n : BitVec 4) (din : Dword)
  /-- FINALIZE: pad, compress the final block or blocks, return the digest (R133). -/
  | finalize
  /-- READ_DIGEST: return the digest again (R134). -/
  | rddig
  deriving DecidableEq, Repr

end Sys2Proof
end

