-- ==== Sys2Proof/WellFormed.lean ====
section
/-!
DEFINITION. Which commands the encoding admits (spec/30_encoding.md rule R63): an APPEND count is 0 to 8.
-/

namespace Sys2Proof

/-- R63: "the legal values are 0 to 8". No other command has an operand to check. -/
def Instr.wf : Instr → Bool
  | .status => true
  | .init => true
  | .append n _ => decide (n.toNat ≤ 8)
  | .finalize => true
  | .rddig => true

end Sys2Proof
end

