-- ==== Sys2Proof/Decode.lean ====
section
/-!
DEFINITION. Decoding of command words, total over all 2^32 of them, and after it the encoder
(spec/30_encoding.md rules R61 to R65, R68, R69). A word that is no command is rejected by the name of its error.
-/

namespace Sys2Proof

/-- `OP`, bits 31:28 of the command word (R61). -/
def opField (w : Word) : BitVec 4 := w.extractLsb' 28 4

/-- `CNT`, bits 27:24 of the command word (R61). -/
def cntField (w : Word) : BitVec 4 := w.extractLsb' 24 4

/-- `RSV`, bits 23:0 of the command word (R61). -/
def rsvField (w : Word) : BitVec 24 := w.extractLsb' 0 24

/-- What decoding answers: a command, or REJECT with a code (R68). -/
inductive Decoded where
  | instr (i : Instr)
  | reject (e : Code)
  deriving DecidableEq, Repr

/-- R68, in its priority order: `E_OPCODE`, then the three `E_FIELD` cases, then the command of the opcode. -/
def decode (c : Command) : Decoded :=
  if 5 ≤ (opField c.cmd).toNat then .reject .eOpcode
  else if rsvField c.cmd ≠ 0 then .reject .eField
  else if opField c.cmd = 2 ∧ 8 < (cntField c.cmd).toNat then .reject .eField
  else if opField c.cmd ≠ 2 ∧ cntField c.cmd ≠ 0 then .reject .eField
  else if opField c.cmd = 0 then .instr .status
  else if opField c.cmd = 1 then .instr .init
  else if opField c.cmd = 2 then .instr (.append (cntField c.cmd) c.din)
  else if opField c.cmd = 3 then .instr .finalize
  else .instr .rddig

/-- The command word of an opcode and a count, with `RSV = 0` (R61). -/
def commandWord (op cnt : BitVec 4) : Word := op ++ cnt ++ 0#24

/-- The transaction of a command (R62, R71): a command that ignores `DIN` is written with `DIN = 0`. -/
def encode : Instr → Command
  | .status => ⟨commandWord 0 0, 0⟩
  | .init => ⟨commandWord 1 0, 0⟩
  | .append n din => ⟨commandWord 2 n, din⟩
  | .finalize => ⟨commandWord 3 0, 0⟩
  | .rddig => ⟨commandWord 4 0, 0⟩

/-- The transaction whose bits are `w`, as the opcode table numbers them: `CMD` is bits 31:0 and `DIN` follows at
bits 95:32; every bit from `nbits` up is 0. The core stores no command words, so no byte order enters here
(log entry 9). -/
def tableCommand (nbits w : Nat) : Command :=
  ⟨BitVec.ofNat 32 (w % 2 ^ nbits), BitVec.ofNat 64 (w % 2 ^ nbits / 2 ^ 32)⟩

/-- The command the decoder reads from the bits `w` of an opcode-table row; none where the core rejects the word. -/
def decodeTableWord (nbits w : Nat) : Option Instr :=
  match decode (tableCommand nbits w) with
  | .instr i => some i
  | .reject _ => none

end Sys2Proof
end

