-- ==== Sys2Proof/Machine/Constants.lean ====
section
/-!
DEFINITION. The fixed data of the MD5 core: the four words of the initialization vector (spec/10_state.md rule R22)
and the 64 additive constants (spec/40_block_compressor.md rule R87). They cannot be written (R51). The spec marks
them as taken from RFC 1321 by general knowledge (93_implementation_defined.md K3, K6; log entry 10).
-/

namespace Sys2Proof.Machine

/-- `ST.A` of a fresh stream (R22). -/
def ivA : Word := 0x67452301
/-- `ST.B` of a fresh stream (R22). -/
def ivB : Word := 0xEFCDAB89
/-- `ST.C` of a fresh stream (R22). -/
def ivC : Word := 0x98BADCFE
/-- `ST.D` of a fresh stream (R22). -/
def ivD : Word := 0x10325476

/-- `T[0..15]`, round 1 (R87). -/
def tRound1 : List Word :=
  [0xD76AA478, 0xE8C7B756, 0x242070DB, 0xC1BDCEEE, 0xF57C0FAF, 0x4787C62A, 0xA8304613, 0xFD469501,
   0x698098D8, 0x8B44F7AF, 0xFFFF5BB1, 0x895CD7BE, 0x6B901122, 0xFD987193, 0xA679438E, 0x49B40821]

/-- `T[16..31]`, round 2 (R87). -/
def tRound2 : List Word :=
  [0xF61E2562, 0xC040B340, 0x265E5A51, 0xE9B6C7AA, 0xD62F105D, 0x02441453, 0xD8A1E681, 0xE7D3FBC8,
   0x21E1CDE6, 0xC33707D6, 0xF4D50D87, 0x455A14ED, 0xA9E3E905, 0xFCEFA3F8, 0x676F02D9, 0x8D2A4C8A]

/-- `T[32..47]`, round 3 (R87). -/
def tRound3 : List Word :=
  [0xFFFA3942, 0x8771F681, 0x6D9D6122, 0xFDE5380C, 0xA4BEEA44, 0x4BDECFA9, 0xF6BB4B60, 0xBEBFBC70,
   0x289B7EC6, 0xEAA127FA, 0xD4EF3085, 0x04881D05, 0xD9D4D039, 0xE6DB99E5, 0x1FA27CF8, 0xC4AC5665]

/-- `T[48..63]`, round 4 (R87). -/
def tRound4 : List Word :=
  [0xF4292244, 0x432AFF97, 0xAB9423A7, 0xFC93A039, 0x655B59C3, 0x8F0CCC92, 0xFFEFF47D, 0x85845DD1,
   0x6FA87E4F, 0xFE2CE6E0, 0xA3014314, 0x4E0811A1, 0xF7537E82, 0xBD3AF235, 0x2AD7D2BB, 0xEB86D391]

/-- The additive constants `T[0..63]` (R87). -/
def tTable : List Word := tRound1 ++ tRound2 ++ tRound3 ++ tRound4

end Sys2Proof.Machine
end

