-- ==== Sys2Proof/Machine/State.lean ====
section
/-!
DEFINITION. The state of the machine (spec/10_state.md): the six elements of rule R20 as `CoreState`, and around them
the command port of rule R60 as plain data, that is, what the host sends and the responses it has received. The core
has no program counter, no address space and no memory (R24, R29, R40), so `State` holds none.
-/

namespace Sys2Proof.Machine

/-- The chaining state `ST`, four 32-bit words (R21). -/
structure Chain where
  a : Word
  b : Word
  c : Word
  d : Word
  deriving DecidableEq, Repr

/-- The initial value of `ST` (R22). -/
def Chain.iv : Chain := ⟨ivA, ivB, ivC, ivD⟩

/-- The core's state: exactly the six elements of rule R20. `STATUS` is read whole, but no command writes it as a word
and its bits 7:5 are never written (R27), so its three fields are held and the 8-bit register is the view `statusReg`
of Machine/Flags.lean. -/
structure CoreState where
  /-- `ST`, the chaining state (R21). -/
  st : Chain
  /-- `BUF`, the unprocessed tail of input, oldest byte first (R25). -/
  buf : List Byte
  /-- `LEN`, the Length Counter (R26). -/
  len : Dword
  /-- `STATUS.FIN`: false is ACTIVE, true is FINALIZED (R27). -/
  fin : Bool
  /-- `STATUS.ERR`, sticky (R27). -/
  err : Bool
  /-- `STATUS.ECODE`, sticky: the code of the first rejected command (R27). -/
  ecode : BitVec 3
  deriving DecidableEq, Repr

/-- The answer to one command (R66). -/
structure Response where
  /-- `RSP_CODE`. -/
  code : BitVec 3
  /-- `RSP_DATA`. -/
  data : RspData
  deriving DecidableEq, Repr

/-- What the outside world does at the port and the reset input, one event at a time (R60, R154, R190 to R195;
log entries 1, 5 and 6). -/
inductive HostInput where
  /-- The host issues a command and waits for its response (R60, R194). -/
  | command (c : Command)
  /-- Reset between commands (R190). -/
  | reset
  /-- The host issues a command and reset arrives while it executes (R191). -/
  | commandReset (c : Command)
  /-- The host issues a second command before the response to the first (forbidden by R194). -/
  | overlap (first second : Command)
  /-- A second agent issues a command to this instance (forbidden by R195). -/
  | otherIssuer (c : Command)
  deriving DecidableEq, Repr

/-- The whole machine: the core, and the host's side of the port as the model's own plain data (log entries 1 to 3). -/
structure State where
  /-- The core's own state (R20). -/
  core : CoreState
  /-- Every response returned so far, in the order of the commands, oldest first (R48, R60). -/
  rsp : List Response
  /-- What the host will still send, next first. -/
  host : List HostInput
  /-- How many commands the host has issued: "a model of a host program has the host's command index as its pc,
  advanced by one per command" (R24). -/
  hostIndex : Nat
  deriving DecidableEq, Repr

/-- The core raises no fault: it "has no traps and no exceptions that transfer control" (R170) and "never raises a data
error, an overflow or a length error" (R176). A rejected command is a next state (R174). Nobody raises one, which is
exact: a step that ended in a fault could not be written. -/
inductive Fault where
  deriving DecidableEq, Repr

/-- Why the machine has no step. -/
inductive Refusal where
  /-- Raised by an arm of `exec` whose command has no meaning yet. No arm of this model raises it. Safe: the machine
  stops. -/
  | notModelled (mnemonic : String)
  /-- Raised by `step` when the host issues a command while another is outstanding: "A model gives no behaviour to a
  run in which the host issues a command while another is outstanding" (R194). Safe: the machine stops. -/
  | commandOutstanding
  /-- Raised by `step` when a second agent issues a command to the instance: "a run with two issuers has no meaning in
  the model" (R195, 92_eei_decisions.md D16). Safe: the machine stops. -/
  | secondIssuer
  deriving DecidableEq, Repr

/-- The core's state after reset (R33, R190). -/
def CoreState.reset : CoreState :=
  { st := Chain.iv, buf := [], len := 0, fin := false, err := false, ecode := 0 }

/-- The machine right after reset: the core as R33 says, and a host that has sent nothing and received nothing. -/
def State.reset : State :=
  { core := CoreState.reset, rsp := [], host := [], hostIndex := 0 }

end Sys2Proof.Machine
end

