-- ==== Sys2Proof/Machine/Operands.lean ====
section
/-!
DEFINITION. How bytes become words and words become bytes: the little-endian conversions (spec/00_scope.md rule R13),
the byte lanes of APPEND (spec/20_memory.md rule R42), the digest serialization (spec/42_finalizer.md rule R132) and
its packing in the response (spec/30_encoding.md rule R67).
-/

namespace Sys2Proof.Machine

/-- `n` bytes of value 0x00 (R12). -/
def zeros (n : Nat) : List Byte := List.replicate n 0

/-- `LE32`, the first byte least significant (R13). -/
def le32 (b0 b1 b2 b3 : Byte) : Word :=
  b0.setWidth 32 ||| b1.setWidth 32 <<< 8 ||| b2.setWidth 32 <<< 16 ||| b3.setWidth 32 <<< 24

/-- `bytes32`, least significant byte first (R13). -/
def bytes32 (w : Word) : List Byte :=
  [w.extractLsb' 0 8, w.extractLsb' 8 8, w.extractLsb' 16 8, w.extractLsb' 24 8]

/-- `bytes64`, least significant byte first (R13). -/
def bytes64 (v : Dword) : List Byte :=
  [v.extractLsb' 0 8, v.extractLsb' 8 8, v.extractLsb' 16 8, v.extractLsb' 24 8,
   v.extractLsb' 32 8, v.extractLsb' 40 8, v.extractLsb' 48 8, v.extractLsb' 56 8]

/-- `lanes(DIN, n)`: lanes 0 to `n - 1`, lane `j` being `DIN[8j+7:8j]` (R42). -/
def lanes (din : Dword) (n : Nat) : List Byte :=
  (List.range n).map fun j => din.extractLsb' (8 * j) 8

/-- The digest of a chaining state: A, B, C, D, each little-endian (R132). -/
def digestBytes (st : Chain) : List Byte :=
  bytes32 st.a ++ bytes32 st.b ++ bytes32 st.c ++ bytes32 st.d

/-- Packing of bytes in `RSP_DATA`: byte `k` at bits `8k+7:8k` (R67). -/
def packBytes : List Byte → RspData
  | [] => 0
  | b :: bs => b.setWidth 128 ||| packBytes bs <<< 8

/-- Reading a packed digest back: `dg[k] = RSP_DATA[8k+7:8k]` (R67, R156). -/
def unpackDigest (r : RspData) : List Byte :=
  (List.range 16).map fun k => r.extractLsb' (8 * k) 8

end Sys2Proof.Machine
end

