-- ==== Sys2Proof/Machine/Compressor.lean ====
section
/-!
DEFINITION. The Block Compressor (spec/40_block_compressor.md): the pure function `Compress(ST, blk)` of rule R95. Its
working words, message words and step index are no state (R23, R96).
-/

namespace Sys2Proof.Machine

/-- `rotl32` (R11). The step uses it with amounts 4 to 23 only (R89). -/
def rotl32 (x : Word) (s : Nat) : Word := x <<< s ||| x >>> (32 - s)

/-- The sixteen little-endian message words of a block (R81): one word from every four bytes. A block has 64 bytes
wherever a rule calls the compressor (R80, R94; log entry 8). -/
def blockWords : List Byte → List Word
  | b0 :: b1 :: b2 :: b3 :: rest => le32 b0 b1 b2 b3 :: blockWords rest
  | _ => []

/-- Round function `F` (R82). -/
def roundF (x y z : Word) : Word := (x &&& y) ||| (~~~x &&& z)

/-- Round function `G` (R83). -/
def roundG (x y z : Word) : Word := (x &&& z) ||| (y &&& ~~~z)

/-- Round function `H` (R84). -/
def roundH (x y z : Word) : Word := x ^^^ y ^^^ z

/-- Round function `I` (R85). -/
def roundI (x y z : Word) : Word := y ^^^ (x ||| ~~~z)

/-- `fn(i, x, y, z)`, the round function of step `i` (R86). -/
def roundFn (i : Nat) (x y z : Word) : Word :=
  if i < 16 then roundF x y z
  else if i < 32 then roundG x y z
  else if i < 48 then roundH x y z
  else roundI x y z

/-- `T[i]` (R87). -/
def addConst (i : Nat) : Word := tTable.getD i 0

/-- `k(i)`, the message-word index of step `i` (R88). -/
def wordIndex (i : Nat) : Nat :=
  if i < 16 then i
  else if i < 32 then (5 * i + 1) % 16
  else if i < 48 then (3 * i + 5) % 16
  else 7 * i % 16

/-- `s(i)`, the rotation amount of step `i` (R89). -/
def rotAmount (i : Nat) : Nat :=
  if i < 16 then [7, 12, 17, 22].getD (i % 4) 0
  else if i < 32 then [5, 9, 14, 20].getD (i % 4) 0
  else if i < 48 then [4, 11, 16, 23].getD (i % 4) 0
  else [6, 10, 15, 21].getD (i % 4) 0

/-- `t` of step `i` on working words `w` and message words `x` (R91). -/
def stepSum (x : List Word) (w : Chain) (i : Nat) : Word :=
  w.a + roundFn i w.b w.c w.d + addConst i + x.getD (wordIndex i) 0

/-- Step `i`: the new `b` is computed and the roles rotate (R91). -/
def compressStep (x : List Word) (w : Chain) (i : Nat) : Chain :=
  ⟨w.d, w.b + rotl32 (stepSum x w i) (rotAmount i), w.b, w.c⟩

/-- The working words after the first `n` steps, run in order from `ST` (R92). -/
def runSteps (x : List Word) (st : Chain) (n : Nat) : Chain :=
  (List.range n).foldl (compressStep x) st

/-- Word-wise sum of two chaining states (R93). -/
def chainAdd (p q : Chain) : Chain := ⟨p.a + q.a, p.b + q.b, p.c + q.c, p.d + q.d⟩

/-- `Compress(ST, blk)` (R95): 64 steps and the feed-forward. -/
def compress (st : Chain) (blk : List Byte) : Chain :=
  chainAdd st (runSteps (blockWords blk) st 64)

end Sys2Proof.Machine
end

