-- ==== Sys2Proof/Machine/Flags.lean ====
section
/-!
DEFINITION. The status register and the response codes as bits (spec/10_state.md rule R27, spec/60_exceptions.md rule
R171). The core has no arithmetic flags (R28): `FIN`, `ERR` and `ECODE` are all there is.
-/

namespace Sys2Proof

/-- The number of a response code (R171). -/
def Code.bits : Code → BitVec 3
  | .ok => 0
  | .eOpcode => 1
  | .eField => 2
  | .eAppendFinal => 3
  | .eFinalTwice => 4
  | .eReadEarly => 5

namespace Machine

/-- The 8-bit register `STATUS`: `FIN` at bit 0, `ERR` at bit 1, `ECODE` at bits 4:2, and 0 at bits 7:5 (R27). -/
def statusReg (c : CoreState) : BitVec 8 :=
  0#3 ++ c.ecode ++ BitVec.ofBool c.err ++ BitVec.ofBool c.fin

/-- The sticky update of a rejection (R174): `ERR` is set, and `ECODE` keeps the first error since INIT or reset. -/
def recordError (e : Code) (c : CoreState) : CoreState :=
  { c with err := true, ecode := if c.ecode = 0 then e.bits else c.ecode }

end Machine

end Sys2Proof
end

