-- ==== Sys2Proof/Machine/Ops.lean ====
section
/-!
DEFINITION. The shared operations on the machine: answering a command, rejecting one (the core's only exception, taken
as spec/60_exceptions.md rule R174 says), reset, and taking the host's next input. There is no return from a rejection:
the core has no handler (R175).
-/

namespace Sys2Proof.Machine

/-- `respond(code, data)`: the one response that ends a command (R14, R60, R66). -/
def respond (code : Code) (data : RspData) (s : State) : State :=
  { s with rsp := s.rsp ++ [⟨code.bits, data⟩] }

/-- `reject(e)`: the sticky bits are updated, the response is `(e, 0)`, and nothing else is written (R174). -/
def reject (e : Code) (s : State) : State :=
  respond e 0 { s with core := recordError e s.core }

/-- A fresh stream: what INIT writes (R113). -/
def initCore : CoreState :=
  { st := Chain.iv, buf := [], len := 0, fin := false, err := false, ecode := 0 }

/-- Reset: every element of the core at its reset value, and no response (R190). -/
def takeReset (s : State) : State := { s with core := CoreState.reset }

/-- The host's next input has been taken; `rest` is what it will send after it. -/
def dropInput (rest : List HostInput) (s : State) : State := { s with host := rest }

/-- The host has issued a command and goes on with `rest`: its command index advances by one (R24). -/
def issue (rest : List HostInput) (s : State) : State :=
  { s with host := rest, hostIndex := s.hostIndex + 1 }

/-- A command whose execution reset interrupts: it leaves no effect and no response, and the state is the reset state
(R191). The command is taken as an argument and its bits are never looked at. -/
def interruptedByReset (_c : Command) (s : State) : State := takeReset s

end Sys2Proof.Machine
end

