-- ==== Sys2Proof/Machine/StreamBuffer.lean ====
section
/-!
DEFINITION. The Stream Buffer (spec/41_stream_buffer.md): `absorb` of rule R110, and the commands INIT, APPEND and
STATUS of rules R113, R114 and R115.
-/

namespace Sys2Proof.Machine

/-- The loop of `absorb` with at most `k` turns: while 64 bytes are gathered, compress the first 64 and go on with the
rest (R110). -/
def absorbBlocks : Nat → Chain → List Byte → Chain × List Byte
  | 0, st, w => (st, w)
  | k + 1, st, w =>
    if 64 ≤ w.length then absorbBlocks k (compress st (w.take 64)) (w.drop 64) else (st, w)

/-- `absorb(ST, BUF, s)` (R110). The loop can turn once for every 64 bytes of `BUF ++ s`, which is the number of turns
it is given. -/
def absorb (st : Chain) (buf s : List Byte) : Chain × List Byte :=
  absorbBlocks ((buf ++ s).length / 64) st (buf ++ s)

/-- `LEN <- (LEN + n) mod 2^64` (R112). -/
def countBytes (len : Dword) (n : Nat) : Dword := len + BitVec.ofNat 64 n

/-- What an OK APPEND of the bytes `bs` writes: `ST`, `BUF` and `LEN` (R114). -/
def appendCore (bs : List Byte) (c : CoreState) : CoreState :=
  { c with
    st := (absorb c.st c.buf bs).1
    buf := (absorb c.st c.buf bs).2
    len := countBytes c.len bs.length }

/-- INIT (R113): legal in both phases; the only command that clears `ERR` and `ECODE`. -/
def execInit (s : State) : Host.Outcome State Fault Refusal :=
  .next (respond .ok 0 { s with core := initCore })

/-- APPEND (R114). A count above 8 is `E_FIELD` before the phase is looked at: the decoder already rejects such a word
(R68), and the meaning says the same of the operand itself (R63; log entry 7). -/
def execAppend (n : BitVec 4) (din : Dword) (s : State) : Host.Outcome State Fault Refusal :=
  if 8 < n.toNat then .next (reject .eField s)
  else if s.core.fin then .next (reject .eAppendFinal s)
  else .next (respond .ok 0 { s with core := appendCore (lanes din n.toNat) s.core })

/-- STATUS (R115): responds with the register, zero-extended; writes no state of the core. -/
def execStatus (s : State) : Host.Outcome State Fault Refusal :=
  .next (respond .ok ((statusReg s.core).setWidth 128) s)

end Sys2Proof.Machine
end

