-- ==== Sys2Proof/Machine/Finalizer.lean ====
section
/-!
DEFINITION. The Finalizer (spec/42_finalizer.md): the padding of rule R130, and the commands FINALIZE and READ_DIGEST
of rules R133 and R134.
-/

namespace Sys2Proof.Machine

/-- `z = (55 - len(BUF)) mod 64`, the number of zero bytes (R130). The difference is taken as an integer. -/
def padZeros (tail : Nat) : Nat := ((55 - (tail : Int)) % 64).toNat

/-- `bitlen = (8 * LEN) mod 2^64` (R130). -/
def bitLen (len : Dword) : Dword := 8 * len

/-- `Pad(BUF, LEN)` (R130). -/
def pad (buf : List Byte) (len : Dword) : List Byte :=
  buf ++ [0x80] ++ zeros (padZeros buf.length) ++ bytes64 (bitLen len)

/-- The compressions of the one or two final blocks `p` (R133). -/
def compressFinal (st : Chain) (p : List Byte) : Chain :=
  if p.length = 128 then compress (compress st (p.take 64)) ((p.drop 64).take 64)
  else compress st (p.take 64)

/-- What an OK FINALIZE writes: `ST`, `BUF` and `STATUS.FIN`; `LEN` is unchanged (R133). -/
def finalizeCore (c : CoreState) : CoreState :=
  { c with st := compressFinal c.st (pad c.buf c.len), buf := [], fin := true }

/-- The digest of `ST` as it stands in `RSP_DATA` (R132, R67). -/
def digestData (st : Chain) : RspData := packBytes (digestBytes st)

/-- FINALIZE (R133). -/
def execFinalize (s : State) : Host.Outcome State Fault Refusal :=
  if s.core.fin then .next (reject .eFinalTwice s)
  else .next (respond .ok (digestData (finalizeCore s.core).st) { s with core := finalizeCore s.core })

/-- READ_DIGEST (R134). -/
def execRddig (s : State) : Host.Outcome State Fault Refusal :=
  if s.core.fin then .next (respond .ok (digestData s.core.st) s)
  else .next (reject .eReadEarly s)

end Sys2Proof.Machine
end

