-- ==== Sys2Proof/Machine/Dispatch.lean ====
section
/-!
DEFINITION. One arm per command: the meaning of each constructor of `Instr` (spec/opcode_table.json).
-/

namespace Sys2Proof.Machine

def exec (i : Instr) (s : State) : Host.Outcome State Fault Refusal :=
  match i with
  | .status => Sys2Proof.Machine.execStatus s
  | .init => Sys2Proof.Machine.execInit s
  | .append n din => Sys2Proof.Machine.execAppend n din s
  | .finalize => Sys2Proof.Machine.execFinalize s
  | .rddig => Sys2Proof.Machine.execRddig s

end Sys2Proof.Machine
end

