-- ==== Sys2Proof/Machine/Port.lean ====
section
/-!
DEFINITION. The command port (spec/30_encoding.md rules R60, R68; spec/70_reset_and_hazards.md): what the machine does
with each input of the host.
-/

namespace Sys2Proof.Machine

/-- Execute one accepted command: a word that does not decode is rejected with its code (R68, R69), any other runs. -/
def serve (c : Command) (s : State) : Host.Outcome State Fault Refusal :=
  match decode c with
  | .instr i => exec i s
  | .reject e => .next (reject e s)

/-- One input of the host, with `rest` after it. Between commands the core is idle: with nothing to take it holds its
state (R185). -/
def takeInput (s : State) : Host.Outcome State Fault Refusal :=
  match s.host with
  | [] => .next s
  | .command c :: rest => serve c (issue rest s)
  | .reset :: rest => .next (takeReset (dropInput rest s))
  | .commandReset c :: rest => .next (interruptedByReset c (issue rest s))
  | .overlap _ _ :: _ => .refused .commandOutstanding
  | .otherIssuer _ :: _ => .refused .secondIssuer

/-- The host's next input is the command `c`. -/
def offer (c : Command) (s : State) : State := { s with host := .command c :: s.host }

end Sys2Proof.Machine
end

