-- ==== Sys2Proof/Machine/Step.lean ====
section
/-!
DEFINITION. One step of the machine: the host's next input taken and, where it is a command, executed to its response
as one atomic transition (spec/00_scope.md rule R15, spec/20_memory.md rule R46). A step takes no time: `LATENCY` is
no part of it (R197).
-/

namespace Sys2Proof.Machine

/-- One step (R15, R46). -/
def step (s : State) : Host.Outcome State Fault Refusal := takeInput s

/-- `s` with the command of an opcode-table word as the host's next input: commands are executed as they arrive and
are not stored (R51), so the place where a step takes its next command is the front of `host` (log entry 1). -/
def State.withFetchWord (s : State) (nbits w : Nat) : State := offer (tableCommand nbits w) s

end Sys2Proof.Machine
end

