-- ==== Sys2Proof/Machine/HostProgram.lean ====
section
/-!
DEFINITION. The host's side as the spec gives it: command text and pseudo-commands (spec/30_encoding.md rules R71,
R72), how a host fills `DIN` (spec/20_memory.md rule R43), and the hexadecimal rendering of a digest
(spec/43_host_interface.md rules R151, R152, R156, R157). Nothing here adds a command or state to the core.
-/

namespace Sys2Proof.Machine

/-- The 64-bit word whose byte at bits `8j+7:8j` is byte `j` (R72): the word a little-endian host reads from these
bytes in address order (R43). -/
def wordLE : List Byte → Dword
  | [] => 0
  | b :: bs => b.setWidth 64 ||| wordLE bs <<< 8

/-- The word a big-endian host reads from the same bytes (R43). -/
def wordBE (bs : List Byte) : Dword := wordLE bs.reverse

/-- `append.b b0, ..., b(n-1)` (R72): one APPEND of at most 8 bytes, lanes from `n` up being zero. -/
def appendB (bs : List Byte) : Command := encode (.append (BitVec.ofNat 4 bs.length) (wordLE bs))

/-- `s` cut in chunks of 8 bytes, the last holding what remains; the first argument bounds the number of chunks. -/
def chunks8 : Nat → List Byte → List (List Byte)
  | 0, _ => []
  | _ + 1, [] => []
  | k + 1, b :: bs => (b :: bs).take 8 :: chunks8 k ((b :: bs).drop 8)

/-- `feed s` (R72, R151): one `append 0, 0` when `s` is empty, else one APPEND per chunk. -/
def feed (s : List Byte) : List Command :=
  if s = [] then [encode (.append 0 0)] else (chunks8 s.length s).map appendB

/-- `digest s` (R72, R152). -/
def digestScript (s : List Byte) : List Command := [encode .init] ++ feed s ++ [encode .finalize]

/-- The lines of command text and the pseudo-commands (R71, R72). -/
inductive AsmLine where
  | status
  | init
  | append (n v : Nat)
  | finalize
  | rddig
  | word (c v : Nat)
  | appendB (bs : List Nat)
  | appendS (text : List Char)
  | feed (s : List Byte)
  | digest (s : List Byte)
  deriving DecidableEq, Repr

/-- The byte of an ASCII character. -/
def asciiByte (c : Char) : Option Byte := if c.toNat < 128 then some (BitVec.ofNat 8 c.toNat) else none

/-- The byte of a number below 256. -/
def byteOfNat (n : Nat) : Option Byte := if n < 256 then some (BitVec.ofNat 8 n) else none

/-- `append.b` of at most 8 bytes; a longer list is no command text. -/
def appendBytes (bs : List Byte) : Option (List Command) := if bs.length ≤ 8 then some [appendB bs] else none

/-- The commands a line stands for (R71, R72); none where an operand is out of its range. -/
def assemble : AsmLine → Option (List Command)
  | .status => some [encode .status]
  | .init => some [encode .init]
  | .append n v =>
    if n ≤ 8 ∧ v < 2 ^ 64 then some [encode (.append (BitVec.ofNat 4 n) (BitVec.ofNat 64 v))] else none
  | .finalize => some [encode .finalize]
  | .rddig => some [encode .rddig]
  | .word c v => if c < 2 ^ 32 ∧ v < 2 ^ 64 then some [⟨BitVec.ofNat 32 c, BitVec.ofNat 64 v⟩] else none
  | .appendB bs => (bs.mapM byteOfNat).bind appendBytes
  | .appendS text => (text.mapM asciiByte).bind appendBytes
  | .feed s => some (Sys2Proof.Machine.feed s)
  | .digest s => some (digestScript s)

/-- A token of command text. -/
inductive Token where
  | word (cs : List Char)
  | comma
  | text (cs : List Char)
  deriving DecidableEq, Repr

/-- A gathered word, if it has any character, and then `ts`. -/
def flushWord (acc : List Char) (ts : List Token) : List Token := if acc = [] then ts else .word acc :: ts

/-- Tokens of a line: words parted by blanks and commas, text in double quotes, and a comment from `;` on (R71; the
lexical form of text and numbers is log entry 12). `acc` is the word or text gathered so far; a quoted text that does
not end is no line. -/
def tokens : (inText : Bool) → (acc : List Char) → List Char → Option (List Token)
  | false, acc, [] => some (flushWord acc [])
  | true, _, [] => none
  | true, acc, c :: cs =>
    if c = '"' then (tokens false [] cs).map (.text acc :: ·) else tokens true (acc ++ [c]) cs
  | false, acc, c :: cs =>
    if c = ';' then some (flushWord acc [])
    else if c = ' ' ∨ c = '\t' then (tokens false [] cs).map (flushWord acc ·)
    else if c = ',' then (tokens false [] cs).map fun ts => flushWord acc (.comma :: ts)
    else if c = '"' then (tokens true [] cs).map (flushWord acc ·)
    else tokens false (acc ++ [c]) cs

/-- The value of a hexadecimal digit of either case (R157). -/
def hexValue (c : Char) : Option Nat :=
  if '0' ≤ c ∧ c ≤ '9' then some (c.toNat - 48)
  else if 'a' ≤ c ∧ c ≤ 'f' then some (c.toNat - 87)
  else if 'A' ≤ c ∧ c ≤ 'F' then some (c.toNat - 55)
  else none

/-- Digits read in a base, most significant first; at least one digit. -/
def numberIn (base : Nat) (cs : List Char) : Option Nat :=
  if cs = [] then none
  else cs.foldl (fun acc c => acc.bind fun n => (hexValue c).bind fun d =>
    if d < base then some (base * n + d) else none) (some 0)

/-- A number: `0x` and hexadecimal digits, or decimal digits. -/
def number : List Char → Option Nat
  | '0' :: 'x' :: ds => numberIn 16 ds
  | ds => numberIn 10 ds

/-- Numbers parted by commas. -/
def numberList : List Token → Option (List Nat)
  | [] => some []
  | [.word n] => (number n).map ([·])
  | .word n :: .comma :: t :: ts => (number n).bind fun x => (numberList (t :: ts)).map (x :: ·)
  | _ => none

/-- The line of a mnemonic and its operands (R71, R72). -/
def statement (m : List Char) (args : List Token) : Option AsmLine :=
  if m = "append.b".toList then (numberList args).map .appendB
  else match args with
    | [] =>
      if m = "status".toList then some .status
      else if m = "init".toList then some .init
      else if m = "finalize".toList then some .finalize
      else if m = "rddig".toList then some .rddig
      else none
    | [.word x, .comma, .word v] =>
      (number x).bind fun x => (number v).bind fun v =>
        if m = "append".toList then some (.append x v)
        else if m = ".word".toList then some (.word x v)
        else none
    | [.text t] =>
      if m = "append.s".toList then some (.appendS t)
      else if m = "feed".toList then (t.mapM asciiByte).map .feed
      else if m = "digest".toList then (t.mapM asciiByte).map .digest
      else none
    | _ => none

/-- One line of command text as commands: none for a line that is no command text, and no commands for a line that
holds only blanks or a comment. -/
def assembleText (line : List Char) : Option (List Command) :=
  (tokens false [] line).bind fun ts =>
    match ts with
    | [] => some []
    | .word m :: args => (statement m args).bind assemble
    | _ => none

/-- A hexadecimal digit (R156). -/
def hexDigit (upper : Bool) (n : Nat) : Char :=
  if n < 10 then Char.ofNat (48 + n) else if upper then Char.ofNat (55 + n) else Char.ofNat (87 + n)

/-- The text of a digest: byte 0 first, high nibble first (R156). A digest has 16 bytes; that a list of any other
length is rendered in the same way is the model's choice (DESIGN CHOICE, log entry 16). -/
def renderHex (upper : Bool) (dg : List Byte) : List Char :=
  dg.flatMap fun b => [hexDigit upper (b.toNat / 16), hexDigit upper (b.toNat % 16)]

/-- Parsing hexadecimal text of either case, the inverse of rendering (R157). The spec gives parsing for 32 digits only:
that text of any even length is parsed, that each digit may be of either case, and that text of odd length or with a
character that is no hexadecimal digit has no bytes, are the model's choice (DESIGN CHOICE, log entry 16). -/
def parseHex : List Char → Option (List Byte)
  | [] => some []
  | [_] => none
  | h :: l :: rest =>
    (hexValue h).bind fun x => (hexValue l).bind fun y =>
      (parseHex rest).map (BitVec.ofNat 8 (16 * x + y) :: ·)

/-- The text of the digest a response carries: `RSP_DATA` read byte by byte, not printed as one number (R156). -/
def renderResponse (upper : Bool) (r : RspData) : List Char := renderHex upper (unpackDigest r)

end Sys2Proof.Machine
end

