-- ==== Sys2Proof/Machine/Instances.lean ====
section
/-!
DEFINITION. Several instances (spec/60_exceptions.md rule R183): each has its own `ST`, `BUF`, `LEN` and `STATUS`, its
own command port and its own reset, and they share nothing that can be written.
-/

namespace Sys2Proof.Machine

/-- One step of instance `k` of several; an instance that does not exist takes no step. -/
def stepInstance (k : Nat) (ss : List State) : Host.Outcome (List State) Fault Refusal :=
  match ss[k]? with
  | none => .next ss
  | some s =>
    match step s with
    | .next t => .next (ss.set k t)
    | .fault r => .fault r
    | .refused r => .refused r

end Sys2Proof.Machine
end

