-- ==== Sys2Proof/Machine/Reference.lean ====
section
/-!
DEFINITION. The digest of a whole message as spec/42_finalizer.md rule R136 writes it, and the compression in RFC
1321's fixed-name form (spec/40_block_compressor.md rule R91). No step of the machine uses them: claims compare the
machine with them.
-/

namespace Sys2Proof.Machine

/-- The padded message `p` of rule R136. -/
def md5Padded (m : List Byte) : List Byte :=
  m ++ [0x80] ++ zeros ((55 - (m.length : Int)) % 64).toNat ++ bytes64 (BitVec.ofNat 64 (8 * m.length % 2 ^ 64))

/-- "for each 64-byte block b of p, in order: ST <- Compress(ST, b)", for the first `k` blocks (R136). -/
def compressBlocks : Nat → Chain → List Byte → Chain
  | 0, st, _ => st
  | k + 1, st, p => compressBlocks k (compress st (p.take 64)) (p.drop 64)

/-- The final chaining state of a message (R136). -/
def md5State (m : List Byte) : Chain :=
  compressBlocks ((md5Padded m).length / 64) Chain.iv (md5Padded m)

/-- `MD5(m)` (R136). -/
def md5 (m : List Byte) : List Byte := digestBytes (md5State m)

/-- RFC 1321's operation `a = b + ((a + fn(b,c,d) + X[k] + T[i]) <<< s)` of step `i` (R91). -/
def rfcOp (x : List Word) (i : Nat) (a b c d : Word) : Word :=
  b + rotl32 (a + roundFn i b c d + x.getD (wordIndex i) 0 + addConst i) (rotAmount i)

/-- Four steps `4j` to `4j + 3` in fixed-name form: each writes one of the registers A, D, C, B in turn (R91). -/
def rfcFour (x : List Word) (w : Chain) (j : Nat) : Chain :=
  let a := rfcOp x (4 * j) w.a w.b w.c w.d
  let d := rfcOp x (4 * j + 1) w.d a w.b w.c
  let c := rfcOp x (4 * j + 2) w.c d a w.b
  let b := rfcOp x (4 * j + 3) w.b c d a
  ⟨a, b, c, d⟩

/-- The compression in fixed-name form (R91, R95). -/
def rfcCompress (st : Chain) (blk : List Byte) : Chain :=
  chainAdd st ((List.range 16).foldl (rfcFour (blockWords blk)) st)

end Sys2Proof.Machine
end

