-- ==== Sys2Proof/Safety.lean ====
section
/-!
DEFINITION. What claims are stated in: the invariant of the core's state, the stream a host has in mind and when the
core's state stands for it, a clean run, and the time of a response.
-/

namespace Sys2Proof.Machine

/-- `STATUS.ECODE` is a legal value (0 to 5) and "is 0 exactly when `ERR` is 0" (R27). -/
def CoreState.statusOk (c : CoreState) : Prop := c.ecode.toNat ≤ 5 ∧ (c.ecode = 0 ↔ c.err = false)

/-- The invariant of the core: `len(BUF) < 64` in both phases (R25), `BUF = []` when FINALIZED (R32), and a legal
`STATUS` (R27). -/
structure CoreState.Inv (c : CoreState) : Prop where
  buf_lt : c.buf.length < 64
  buf_final : c.fin = true → c.buf = []
  status : c.statusOk

/-- The invariant of the machine. -/
def State.Inv (s : State) : Prop := s.core.Inv

/-- A stream as the host sees it: the bytes of the OK APPENDs since the last INIT or reset, and whether it has been
finalized (R31, R155). -/
structure Stream where
  msg : List Byte
  done : Bool
  deriving DecidableEq, Repr

/-- The stream after INIT or reset. -/
def Stream.fresh : Stream := ⟨[], false⟩

/-- The result of a stream: MD5 of its bytes once an OK FINALIZE has ended it, and none before ("once started,
finalization is the only way to obtain a result", R155; R136). -/
def Stream.result (g : Stream) : Option (List Byte) := if g.done then some (md5 g.msg) else none

/-- What a command does to the stream (R113, R114, R133): a rejected command does nothing (R174). -/
def Stream.after (g : Stream) : Instr → Stream
  | .status => g
  | .init => Stream.fresh
  | .append n din => if g.done ∨ 8 < n.toNat then g else ⟨g.msg ++ lanes din n.toNat, false⟩
  | .finalize => ⟨g.msg, true⟩
  | .rddig => g

/-- What an input of the host does to the stream. -/
def Stream.afterInput (g : Stream) : HostInput → Stream
  | .command c =>
    match decode c with
    | .instr i => g.after i
    | .reject _ => g
  | .reset => Stream.fresh
  | .commandReset _ => Stream.fresh
  | .overlap _ _ => g
  | .otherIssuer _ => g

/-- The whole 64-byte blocks of a message compressed from the initial value: `ST` of rule R31. -/
def streamChain (m : List Byte) : Chain := compressBlocks (m.length / 64) Chain.iv m

/-- The core's state stands for the stream: rule R31 while ACTIVE, rule R32 once FINALIZED. -/
structure Represents (g : Stream) (c : CoreState) : Prop where
  phase : c.fin = g.done
  len : c.len = BitVec.ofNat 64 g.msg.length
  active_st : g.done = false → c.st = streamChain g.msg
  active_buf : g.done = false → c.buf = g.msg.drop (64 * (g.msg.length / 64))
  final_st : g.done = true → c.st = md5State g.msg
  final_buf : g.done = true → c.buf = []

/-- `OP` of a command as a number: bits 31:28 of `CMD` (R61, R10). -/
def opNum (c : Command) : Nat := c.cmd.toNat / 2 ^ 28

/-- `CNT` of a command as a number: bits 27:24 of `CMD` (R61, R63). -/
def cntNum (c : Command) : Nat := c.cmd.toNat / 2 ^ 24 % 16

/-- `RSV` of a command as a number: bits 23:0 of `CMD` (R61, R64). -/
def rsvNum (c : Command) : Nat := c.cmd.toNat % 2 ^ 24

/-- `t` is `s` after a rejection with code `e`: the sticky bits and the response, and nothing else (R174). -/
structure Rejected (e : BitVec 3) (s t : State) : Prop where
  err : t.core.err = true
  ecode : t.core.ecode = if s.core.ecode = 0 then e else s.core.ecode
  rsp : t.rsp = s.rsp ++ [⟨e, 0⟩]
  st : t.core.st = s.core.st
  buf : t.core.buf = s.core.buf
  len : t.core.len = s.core.len
  fin : t.core.fin = s.core.fin
  host : t.host = s.host
  hostIndex : t.hostIndex = s.hostIndex

/-- A state of a clean run: no command has been rejected since the last INIT or reset
(93_implementation_defined.md U1). -/
def State.clean (s : State) : Prop := s.core.err = false

/-- `k` steps one after another, stopping where a step stops (R48: the effect of a sequence of commands is the
composition of the command rules in order). -/
def runFor : Nat → State → Host.Outcome State Fault Refusal
  | 0, s => .next s
  | k + 1, s =>
    match step s with
    | .next t => runFor k t
    | .fault r => .fault r
    | .refused r => .refused r

/-- The time of the response to a command of a run accepted at time `accepted` (R197): `LATENCY` later. -/
def responseTime (run command accepted : Nat) : Nat := accepted + Config.latency run command

end Sys2Proof.Machine
end

