-- ==== Sys2Proof/Certificates/Slice0/Obligations.lean ====
section
/-!
DEFINITION. The statements about the MD5 core. Each docstring names the rule it formalises. A statement that reads
`∃ t, step s = .next t ∧ …` says that the machine goes on.
-/

open Sys2Proof Sys2Proof.Machine

/-! ### Reset -/

/-- R33: the value of every state element after reset, and that an OK INIT sets the same values. -/
def Obligations.ResetLeavesFreshStream : Prop :=
  State.reset.core.st = Chain.iv ∧ State.reset.core.buf = [] ∧ State.reset.core.len = 0 ∧
  State.reset.core.fin = false ∧ State.reset.core.err = false ∧ State.reset.core.ecode = 0 ∧
  (statusReg State.reset.core).extractLsb' 5 3 = 0 ∧
  ∀ s : State, ∃ t, exec .init s = .next t ∧ t.core = State.reset.core

/-- The words of R22 and their bytes. The spec marks them "from general knowledge, not in source" (K3; log entry 10). -/
def Obligations.InitialValueWords : Prop :=
  Chain.iv = ⟨0x67452301, 0xEFCDAB89, 0x98BADCFE, 0x10325476⟩ ∧
  bytes32 Chain.iv.a = [0x01, 0x23, 0x45, 0x67] ∧ bytes32 Chain.iv.b = [0x89, 0xAB, 0xCD, 0xEF] ∧
  bytes32 Chain.iv.c = [0xFE, 0xDC, 0xBA, 0x98] ∧ bytes32 Chain.iv.d = [0x76, 0x54, 0x32, 0x10]

/-- R190: reset puts every element at its reset value from any state, with no response; the host may APPEND at once;
an OK INIT has the same effect on the core. (That reset is an input of the host's side is log entry 5, and that it
leaves the host's index is log entry 3.) -/
def Obligations.ResetRestoresResetState : Prop :=
  ∀ (s : State) (rest : List HostInput), s.host = .reset :: rest →
    ∃ t, step s = .next t ∧ t = ⟨⟨Chain.iv, [], 0, false, false, 0⟩, s.rsp, rest, s.hostIndex⟩ ∧
      statusReg t.core = 0x00 ∧
      (∀ (n : BitVec 4) (din : Dword), n.toNat ≤ 8 →
        ∃ u, exec (.append n din) t = .next u ∧ u.rsp = t.rsp ++ [⟨0, 0⟩]) ∧
      (∃ u, exec .init s = .next u ∧ u.core = t.core ∧ u.rsp = s.rsp ++ [⟨0, 0⟩])

/-- R191: reset overrides a command in progress: no effect, no response, and the reset state. (That such a command is
one input of the model is log entry 5.) -/
def Obligations.ResetDiscardsRunningCommand : Prop :=
  ∀ (s : State) (c : Command) (rest : List HostInput), s.host = .commandReset c :: rest →
    ∃ t, step s = .next t ∧ t.core = State.reset.core ∧ t.rsp = s.rsp ∧ t.host = rest

/-! ### Decoding and encoding -/

/-- R68: decoding is total, its priority order, the phase errors after every decoding error, and the 13 legal command
words. -/
def Obligations.DecodeFollowsPriority : Prop :=
  (∀ c : Command,
    (5 ≤ opNum c → decode c = .reject .eOpcode) ∧
    (opNum c < 5 → rsvNum c ≠ 0 → decode c = .reject .eField) ∧
    (opNum c = 2 → rsvNum c = 0 → 8 < cntNum c → decode c = .reject .eField) ∧
    (opNum c < 5 → opNum c ≠ 2 → rsvNum c = 0 → cntNum c ≠ 0 → decode c = .reject .eField) ∧
    (opNum c = 0 → rsvNum c = 0 → cntNum c = 0 → decode c = .instr .status) ∧
    (opNum c = 1 → rsvNum c = 0 → cntNum c = 0 → decode c = .instr .init) ∧
    (opNum c = 2 → rsvNum c = 0 → cntNum c ≤ 8 →
      decode c = .instr (.append (BitVec.ofNat 4 (cntNum c)) c.din)) ∧
    (opNum c = 3 → rsvNum c = 0 → cntNum c = 0 → decode c = .instr .finalize) ∧
    (opNum c = 4 → rsvNum c = 0 → cntNum c = 0 → decode c = .instr .rddig)) ∧
  (∀ (s : State) (c : Command) (rest : List HostInput) (e : Code), s.host = .command c :: rest →
    decode c = .reject e → ∃ t, step s = .next t ∧ t.rsp = s.rsp ++ [⟨e.bits, 0⟩]) ∧
  (∀ (w : Word) (din : Dword), (∃ i, decode ⟨w, din⟩ = .instr i) ↔
    w ∈ ([0x00000000, 0x10000000, 0x20000000, 0x21000000, 0x22000000, 0x23000000, 0x24000000, 0x25000000,
      0x26000000, 0x27000000, 0x28000000, 0x30000000, 0x40000000] : List Word))

/-- Decoding the word of a well-formed command gives the command back, with every operand (R61 to R64). -/
def Obligations.EncodeThenDecode : Prop :=
  ∀ i : Instr, i.wf = true → decode (encode i) = .instr i

/-- A command word that decodes is the encoding of what it decodes to, and only APPEND keeps its data word (R65,
R68). -/
def Obligations.DecodeThenEncode : Prop :=
  ∀ (c : Command) (i : Instr), decode c = .instr i →
    i.wf = true ∧ (encode i).cmd = c.cmd ∧
    ((∃ n, i = .append n c.din) ∨ ∀ din, decode ⟨c.cmd, din⟩ = .instr i)

/-- Words written out from R62, R63 and the decode vectors of 95_test_vectors.md V8. -/
def Obligations.SpecWordsDecode : Prop :=
  decode ⟨0x00000000, 7⟩ = .instr .status ∧ decode ⟨0x10000000, 7⟩ = .instr .init ∧
  decode ⟨0x20000000, 7⟩ = .instr (.append 0 7) ∧ decode ⟨0x28000000, 7⟩ = .instr (.append 8 7) ∧
  decode ⟨0x30000000, 7⟩ = .instr .finalize ∧ decode ⟨0x40000000, 7⟩ = .instr .rddig ∧
  decode ⟨0x29000000, 7⟩ = .reject .eField ∧ decode ⟨0x2F000000, 7⟩ = .reject .eField ∧
  decode ⟨0x20000001, 7⟩ = .reject .eField ∧ decode ⟨0x01000000, 7⟩ = .reject .eField ∧
  decode ⟨0x30800000, 7⟩ = .reject .eField ∧ decode ⟨0x50000000, 7⟩ = .reject .eOpcode ∧
  decode ⟨0xFFFFFFFF, 7⟩ = .reject .eOpcode

/-! ### The step -/

/-- A step whose next input is a command that decodes to `i` is `exec` of `i`, after the host's side has moved past the
command (R60, R24). That the host's inputs are a list in the state is log entry 1, and its index log entry 3. -/
def Obligations.StepRunsDecodedCommand : Prop :=
  ∀ (s : State) (c : Command) (rest : List HostInput) (i : Instr), s.host = .command c :: rest →
    decode c = .instr i →
    step s = exec i { s with host := rest, hostIndex := s.hostIndex + 1 }

/-- R174, over every command and state: a response with a nonzero code goes with the sticky update and data 0, and
nothing else of the core is written. -/
def Obligations.RejectionWritesOnlyStickyBits : Prop :=
  ∀ (s t : State) (c : Command) (rest : List HostInput) (r : Response), s.host = .command c :: rest →
    step s = .next t → t.rsp = s.rsp ++ [r] → r.code ≠ 0 →
    r.data = 0 ∧ t.core.err = true ∧
    t.core.ecode = (if s.core.ecode = 0 then r.code else s.core.ecode) ∧
    t.core.st = s.core.st ∧ t.core.buf = s.core.buf ∧ t.core.len = s.core.len ∧ t.core.fin = s.core.fin

/-- Every command, legal or not, is answered by exactly one response, and the host goes on (R60, R170). That the host's
index advances by one for a rejected command too is R24 with log entry 3. -/
def Obligations.CommandAnsweredOnce : Prop :=
  ∀ (s : State) (c : Command) (rest : List HostInput), s.host = .command c :: rest →
    ∃ t r, step s = .next t ∧ t.rsp = s.rsp ++ [r] ∧ t.host = rest ∧ t.hostIndex = s.hostIndex + 1

/-- With nothing to take, the core is idle and holds its state (R185; that an empty list of inputs is a step is the
model's own, log entry 1). -/
def Obligations.IdleCoreHoldsState : Prop :=
  ∀ s : State, s.host = [] → step s = .next s

/-- The machine has no step exactly when the host breaks R194 or R195 (93_implementation_defined.md U5, U6; that the
breach is an input of the model is log entry 6). -/
def Obligations.OnlyHostMisuseStops : Prop :=
  ∀ s : State,
    ((∃ t, step s = .next t) ↔
      ∀ (x : HostInput) (rest : List HostInput), s.host = x :: rest →
        (∀ c d, x ≠ .overlap c d) ∧ ∀ c, x ≠ .otherIssuer c) ∧
    (∀ c d rest, s.host = .overlap c d :: rest → step s = .refused .commandOutstanding) ∧
    (∀ c rest, s.host = .otherIssuer c :: rest → step s = .refused .secondIssuer)

/-! ### The five commands -/

/-- R113, INIT: its encoding, its effect in every state, its only error, that it alone clears the sticky bits, and
that INIT after INIT leaves the same state. -/
def Obligations.InitStartsFreshStream : Prop :=
  (∀ din, decode ⟨0x10000000, din⟩ = .instr .init) ∧
  (∀ s : State, exec .init s =
    .next ⟨⟨Chain.iv, [], 0, false, false, 0⟩, s.rsp ++ [⟨0, 0⟩], s.host, s.hostIndex⟩) ∧
  (∀ (s : State) (c : Command) (rest : List HostInput), s.host = .command c :: rest → opNum c = 1 →
    (cntNum c ≠ 0 ∨ rsvNum c ≠ 0) → ∃ t, step s = .next t ∧ Rejected 2 (issue rest s) t) ∧
  (∀ (i : Instr) (s t : State), exec i s = .next t →
    (s.core.err = true ∧ t.core.err = false ∨ s.core.ecode ≠ 0 ∧ t.core.ecode = 0) → i = .init) ∧
  (∀ s t : State, exec .init s = .next t → ∃ u, exec .init t = .next u ∧ u.core = t.core)

/-- R114, APPEND: its encoding, its effect in the ACTIVE phase, its three errors, and corner cases (a) to (f) with
the example. -/
def Obligations.AppendAddsLanes : Prop :=
  (∀ (n : BitVec 4) (din : Dword), n.toNat ≤ 8 →
    decode ⟨0x20000000 + BitVec.ofNat 32 n.toNat <<< 24, din⟩ = .instr (.append n din)) ∧
  (∀ (n : BitVec 4) (din : Dword) (s : State), n.toNat ≤ 8 → s.core.fin = false →
    exec (.append n din) s = .next
      ⟨⟨(absorb s.core.st s.core.buf (lanes din n.toNat)).1,
        (absorb s.core.st s.core.buf (lanes din n.toNat)).2,
        BitVec.ofNat 64 ((s.core.len.toNat + n.toNat) % 2 ^ 64), false, s.core.err, s.core.ecode⟩,
       s.rsp ++ [⟨0, 0⟩], s.host, s.hostIndex⟩) ∧
  (∀ (n : BitVec 4) (din : Dword) (s : State), n.toNat ≤ 8 → s.core.fin = true →
    ∃ t, exec (.append n din) s = .next t ∧ Rejected 3 s t) ∧
  (∀ (s : State) (c : Command) (rest : List HostInput), s.host = .command c :: rest → opNum c = 2 →
    (8 < cntNum c ∨ rsvNum c ≠ 0) → ∃ t, step s = .next t ∧ Rejected 2 (issue rest s) t) ∧
  (∀ (din : Dword) (s : State), s.core.fin = false → s.core.buf.length < 64 →
    exec (.append 0 din) s = .next ⟨s.core, s.rsp ++ [⟨0, 0⟩], s.host, s.hostIndex⟩) ∧
  (∀ (n : BitVec 4) (din : Dword) (s : State), n.toNat ≤ 8 → s.core.fin = false → s.core.buf.length < 64 →
    ∃ t, exec (.append n din) s = .next t ∧
      (s.core.buf.length + n.toNat < 64 →
        t.core.st = s.core.st ∧ t.core.buf = s.core.buf ++ lanes din n.toNat) ∧
      (s.core.buf.length + n.toNat = 64 →
        t.core.st = compress s.core.st (s.core.buf ++ lanes din n.toNat) ∧ t.core.buf = []) ∧
      (64 < s.core.buf.length + n.toNat →
        t.core.st = compress s.core.st ((s.core.buf ++ lanes din n.toNat).take 64) ∧
        t.core.buf = (s.core.buf ++ lanes din n.toNat).drop 64 ∧
        t.core.buf.length = s.core.buf.length + n.toNat - 64 ∧ t.core.buf.length ≤ 7)) ∧
  (∀ (n : BitVec 4) (d d' : Dword) (s : State), d.toNat % 2 ^ (8 * n.toNat) = d'.toNat % 2 ^ (8 * n.toNat) →
    exec (.append n d) s = exec (.append n d') s) ∧
  (∀ (din : Dword) (s : State), s.core.fin = false → s.core.len = BitVec.ofNat 64 (2 ^ 64 - 1) →
    ∃ t, exec (.append 1 din) s = .next t ∧ t.core.len = 0 ∧ t.rsp = s.rsp ++ [⟨0, 0⟩]) ∧
  exec (.append 3 0x636261) State.reset =
    .next ⟨⟨Chain.iv, [0x61, 0x62, 0x63], 3, false, false, 0⟩, [⟨0, 0⟩], [], 0⟩

/-- R115, STATUS: its encoding, its response bit by bit in every state, that it writes nothing, its only error, and
the two example values. -/
def Obligations.StatusReadsRegister : Prop :=
  (∀ din, decode ⟨0x00000000, din⟩ = .instr .status) ∧
  (∀ s : State, ∃ d : BitVec 8,
    exec .status s = .next ⟨s.core, s.rsp ++ [⟨0, d.setWidth 128⟩], s.host, s.hostIndex⟩ ∧
    d.getLsbD 0 = s.core.fin ∧ d.getLsbD 1 = s.core.err ∧ d.extractLsb' 2 3 = s.core.ecode ∧
    d.extractLsb' 5 3 = 0) ∧
  (∀ (s : State) (c : Command) (rest : List HostInput), s.host = .command c :: rest → opNum c = 0 →
    (cntNum c ≠ 0 ∨ rsvNum c ≠ 0) → ∃ t, step s = .next t ∧ Rejected 2 (issue rest s) t) ∧
  exec .status State.reset = .next ⟨State.reset.core, [⟨0, 0x00⟩], [], 0⟩ ∧
  (∃ t u v : State, exec .finalize State.reset = .next t ∧ exec .finalize t = .next u ∧
    exec .status u = .next v ∧ v.rsp = u.rsp ++ [⟨0, 0x13⟩])

/-- R133, FINALIZE: its encoding, its effect in the ACTIVE phase, its two errors, that a rejected FINALIZE leaves the
digest readable, corner cases (a) to (e) and the example. -/
def Obligations.FinalizeReturnsDigest : Prop :=
  (∀ din, decode ⟨0x30000000, din⟩ = .instr .finalize) ∧
  (∀ (s : State) (p : List Byte) (st : Chain), s.core.fin = false → p = pad s.core.buf s.core.len →
    st = (if p.length = 128 then compress (compress s.core.st (p.take 64)) ((p.drop 64).take 64)
      else compress s.core.st (p.take 64)) →
    exec .finalize s = .next
      ⟨⟨st, [], s.core.len, true, s.core.err, s.core.ecode⟩, s.rsp ++ [⟨0, digestData st⟩], s.host,
       s.hostIndex⟩) ∧
  (∀ s : State, s.core.fin = true → ∃ t u, exec .finalize s = .next t ∧ Rejected 4 s t ∧
    exec .rddig t = .next u ∧ u.rsp = t.rsp ++ [⟨0, digestData s.core.st⟩]) ∧
  (∀ (s : State) (c : Command) (rest : List HostInput), s.host = .command c :: rest → opNum c = 3 →
    (cntNum c ≠ 0 ∨ rsvNum c ≠ 0) → ∃ t, step s = .next t ∧ Rejected 2 (issue rest s) t) ∧
  (∀ (buf : List Byte) (len : Dword),
    (buf = [] → pad buf len = [0x80] ++ zeros 55 ++ bytes64 (bitLen len)) ∧
    (buf.length = 55 → pad buf len = buf ++ [0x80] ++ bytes64 (bitLen len)) ∧
    (56 ≤ buf.length → buf.length ≤ 63 → (pad buf len).length = 128) ∧
    (bitLen len).toNat = 8 * len.toNat % 2 ^ 64) ∧
  (∃ t, exec .finalize State.reset = .next t ∧
    t.rsp = [⟨0, 0x7E42F8EC980980E904B2008FD98C1DD4⟩] ∧
    pad [] 0 = [0x80] ++ zeros 63) ∧
  (∃ t u, exec (.append 3 0x636261) State.reset = .next t ∧ exec .finalize t = .next u ∧
    pad t.core.buf t.core.len = [0x61, 0x62, 0x63, 0x80] ++ zeros 52 ++ [0x18, 0, 0, 0, 0, 0, 0, 0] ∧
    u.rsp = t.rsp ++ [⟨0, 0x727FE1287D3F96D6B04FD23C98500190⟩])

/-- R134, READ_DIGEST: its encoding, its response in the FINALIZED phase, that it writes nothing, its two errors, that
any number of them returns what FINALIZE returned, and the example. -/
def Obligations.ReadDigestReturnsDigest : Prop :=
  (∀ din, decode ⟨0x40000000, din⟩ = .instr .rddig) ∧
  (∀ s : State, s.core.fin = true →
    exec .rddig s = .next ⟨s.core, s.rsp ++ [⟨0, packBytes (digestBytes s.core.st)⟩], s.host, s.hostIndex⟩) ∧
  (∀ s : State, s.core.fin = false → ∃ t, exec .rddig s = .next t ∧ Rejected 5 s t) ∧
  (∀ (s : State) (c : Command) (rest : List HostInput), s.host = .command c :: rest → opNum c = 4 →
    (cntNum c ≠ 0 ∨ rsvNum c ≠ 0) → ∃ t, step s = .next t ∧ Rejected 2 (issue rest s) t) ∧
  (∀ s : State, s.core.fin = false → ∃ (r : Response) (t u v : State), exec .finalize s = .next t ∧
    t.rsp = s.rsp ++ [r] ∧ exec .rddig t = .next u ∧ u.rsp = t.rsp ++ [r] ∧
    exec .rddig u = .next v ∧ v.rsp = u.rsp ++ [r]) ∧
  (∃ t u v : State, exec (.append 3 0x636261) State.reset = .next t ∧ exec .finalize t = .next u ∧
    exec .rddig u = .next v ∧ v.rsp = u.rsp ++ [⟨0, 0x727FE1287D3F96D6B04FD23C98500190⟩])

/-! ### Rules of the whole machine -/

/-- The frame of every command (R27, R45, R174): which command may change which element, and that the port's earlier
responses, the host's later inputs and its index stay. -/
def Obligations.EachElementHasItsWriters : Prop :=
  ∀ (i : Instr) (s t : State), exec i s = .next t →
    t.host = s.host ∧ t.hostIndex = s.hostIndex ∧ (∃ r, t.rsp = s.rsp ++ [r]) ∧
    (t.core.st ≠ s.core.st → i = .init ∨ i = .finalize ∨ ∃ n din, i = .append n din) ∧
    (t.core.buf ≠ s.core.buf → i = .init ∨ i = .finalize ∨ ∃ n din, i = .append n din) ∧
    (t.core.len ≠ s.core.len → i = .init ∨ ∃ n din, i = .append n din) ∧
    (t.core.fin ≠ s.core.fin → i = .init ∨ i = .finalize) ∧
    (i = .status → t.core = s.core) ∧
    (t.core.err ≠ s.core.err ∨ t.core.ecode ≠ s.core.ecode → i ≠ .init → ∃ r, t.rsp = s.rsp ++ [r] ∧ r.code ≠ 0)

/-- R112: an OK APPEND of `n` bytes adds `n` to `LEN` modulo 2^64, with no error; a rejected APPEND does not change
`LEN`; the wrap is exact for the length field of finalization. (That the meaning itself rejects a count above 8, which
no decoded word carries, is log entry 7.) -/
def Obligations.LengthCounterCounts : Prop :=
  (∀ (n : BitVec 4) (din : Dword) (s : State), n.toNat ≤ 8 → s.core.fin = false →
    ∃ t, exec (.append n din) s = .next t ∧ t.rsp = s.rsp ++ [⟨0, 0⟩] ∧
      t.core.len.toNat = (s.core.len.toNat + n.toNat) % 2 ^ 64) ∧
  (∀ (n : BitVec 4) (din : Dword) (s : State), (s.core.fin = true ∨ 8 < n.toNat) →
    ∃ t, exec (.append n din) s = .next t ∧ t.core.len = s.core.len) ∧
  (∀ n : Nat, (bitLen (BitVec.ofNat 64 n)).toNat = 8 * n % 2 ^ 64)

/-- The sticky bits stay until INIT or reset: once an error is recorded, every other step keeps it, a later rejection
too (R175, R27). -/
def Obligations.FirstErrorStays : Prop :=
  ∀ (s t : State), s.core.err = true → s.core.ecode ≠ 0 → step s = .next t →
    (∀ rest, s.host ≠ .reset :: rest) → (∀ c rest, s.host ≠ .commandReset c :: rest) →
    (∀ c rest, s.host = .command c :: rest → decode c ≠ .instr .init) →
    t.core.err = true ∧ t.core.ecode = s.core.ecode

/-- In a run without INIT and reset, a status that is clean at the end shows that no command was rejected
(93_implementation_defined.md U1 to U4: "a claim about a clean run takes `ERR = 0` at its end as a premise"). -/
def Obligations.CleanRunRejectedNothing : Prop :=
  ∀ (k : Nat) (s t : State), runFor k s = .next t →
    (∀ x ∈ s.host.take k, ∃ c, x = .command c ∧ decode c ≠ .instr .init) → t.clean →
    ∃ rs, t.rsp = s.rsp ++ rs ∧ ∀ r ∈ rs, r.code = 0

/-- A set `ERR` does not block any command: two states that differ in the sticky bits only take the same step but for
those bits, and give the same response to every command but STATUS (R28, R175). -/
def Obligations.ErrorBitsDoNotBlock : Prop :=
  ∀ (s : State) (err : Bool) (ecode : BitVec 3) (c : Command) (rest : List HostInput),
    s.host = .command c :: rest →
    ∃ t u, step s = .next t ∧ step { s with core := { s.core with err := err, ecode := ecode } } = .next u ∧
      t.core.st = u.core.st ∧ t.core.buf = u.core.buf ∧ t.core.len = u.core.len ∧ t.core.fin = u.core.fin ∧
      (decode c ≠ .instr .status → t.rsp = u.rsp)

/-- In the FINALIZED phase no command but INIT changes `ST` or the phase, and READ_DIGEST still returns the same
digest (R135). -/
def Obligations.DigestImmutable : Prop :=
  ∀ (s : State) (c : Command) (rest : List HostInput), s.core.fin = true → s.host = .command c :: rest →
    decode c ≠ .instr .init →
    ∃ t u, step s = .next t ∧ t.core.st = s.core.st ∧ t.core.fin = true ∧
      exec .rddig t = .next u ∧ u.rsp = t.rsp ++ [⟨0, digestData s.core.st⟩]

/-- `ST`, `BUF` and `LEN` are hidden in the ACTIVE phase: two ACTIVE states that differ only in them give the same
response to every command but FINALIZE, and their status stays equal (R30). -/
def Obligations.ActiveStateHidden : Prop :=
  ∀ (s : State) (st : Chain) (buf : List Byte) (len : Dword) (c : Command) (rest : List HostInput),
    s.core.fin = false → s.host = .command c :: rest → decode c ≠ .instr .finalize →
    ∃ t u, step s = .next t ∧ step { s with core := { s.core with st := st, buf := buf, len := len } } = .next u ∧
      t.rsp = u.rsp ∧ t.core.fin = false ∧ u.core.fin = false ∧ t.core.err = u.core.err ∧
      t.core.ecode = u.core.ecode

/-- In the FINALIZED phase `BUF` and `LEN` have no observable effect: no response shows them, and INIT overwrites both
(R32). -/
def Obligations.FinalizedTailUnobservable : Prop :=
  ∀ (s : State) (buf : List Byte) (len : Dword) (c : Command) (rest : List HostInput),
    s.core.fin = true → s.host = .command c :: rest →
    ∃ t u, step s = .next t ∧ step { s with core := { s.core with buf := buf, len := len } } = .next u ∧
      t.rsp = u.rsp ∧ { t.core with buf := [], len := 0 } = { u.core with buf := [], len := 0 } ∧
      (decode c = .instr .init → t.core = u.core)

/-- R65: a command other than APPEND with any `DIN` behaves as with `DIN = 0`, and APPEND reads only its lanes 0 to
`n - 1`. -/
def Obligations.DataWordReadOnlyByAppend : Prop :=
  (∀ (s : State) (c : Command) (rest : List HostInput), opNum c ≠ 2 →
    step { s with host := .command c :: rest } = step { s with host := .command ⟨c.cmd, 0⟩ :: rest }) ∧
  (∀ (s : State) (c : Command) (din : Dword) (rest : List HostInput), opNum c = 2 →
    (∀ j, j < cntNum c → j < 8 → din.extractLsb' (8 * j) 8 = c.din.extractLsb' (8 * j) 8) →
    step { s with host := .command c :: rest } = step { s with host := .command ⟨c.cmd, din⟩ :: rest })

/-- The codes each command can answer with (R172). -/
def Obligations.ResponseCodesOfEachCommand : Prop :=
  ∀ (s t : State) (c : Command) (rest : List HostInput) (r : Response), s.host = .command c :: rest →
    step s = .next t → t.rsp = s.rsp ++ [r] →
    (opNum c = 0 ∨ opNum c = 1 → r.code = 0 ∨ r.code = 2) ∧
    (opNum c = 2 → r.code = 0 ∨ r.code = 2 ∨ r.code = 3) ∧
    (opNum c = 3 → r.code = 0 ∨ r.code = 2 ∨ r.code = 4) ∧
    (opNum c = 4 → r.code = 0 ∨ r.code = 2 ∨ r.code = 5) ∧
    (5 ≤ opNum c → r.code = 1)

/-- Which commands may be repeated (R47): STATUS and READ_DIGEST in the FINALIZED phase change nothing of the core, a
READ_DIGEST in the ACTIVE phase writes the sticky bits, two INITs leave what one leaves, APPEND of no bytes changes
nothing, APPEND of some bytes and its repetition each leave a `LEN` that was not there before, and a second FINALIZE is
rejected. -/
def Obligations.RepeatedCommands : Prop :=
  (∀ s : State, ∃ t, exec .status s = .next t ∧ t.core = s.core) ∧
  (∀ s : State, s.core.fin = true → ∃ t, exec .rddig s = .next t ∧ t.core = s.core) ∧
  (∀ s : State, s.core.fin = false → ∃ t, exec .rddig s = .next t ∧ Rejected 5 s t) ∧
  (∀ s : State, ∃ t u, exec .init s = .next t ∧ exec .init t = .next u ∧ u.core = t.core) ∧
  (∀ (n : BitVec 4) (din : Dword) (s : State), s.core.fin = false → 0 < n.toNat → n.toNat ≤ 8 →
    ∃ t u, exec (.append n din) s = .next t ∧ exec (.append n din) t = .next u ∧
      t.core.len ≠ s.core.len ∧ u.core.len ≠ t.core.len ∧ u.core.len ≠ s.core.len) ∧
  (∀ (din : Dword) (s : State), s.core.fin = false → s.core.buf.length < 64 →
    ∃ t, exec (.append 0 din) s = .next t ∧ t.core = s.core) ∧
  (∀ s : State, s.core.fin = false → ∃ t u, exec .finalize s = .next t ∧ exec .finalize t = .next u ∧
    Rejected 4 t u)

/-! ### Absorbing and padding -/

/-- R110: the loop of `absorb`, that fewer than 64 bytes are kept, and that an APPEND's chunk compresses at most one
block. -/
def Obligations.AbsorbFollowsLoop : Prop :=
  (∀ (st : Chain) (buf s : List Byte), (buf ++ s).length < 64 → absorb st buf s = (st, buf ++ s)) ∧
  (∀ (st : Chain) (buf s : List Byte), 64 ≤ (buf ++ s).length →
    absorb st buf s = absorb (compress st ((buf ++ s).take 64)) ((buf ++ s).drop 64) []) ∧
  (∀ (st : Chain) (buf s : List Byte), (absorb st buf s).2.length ≤ 63) ∧
  (∀ (st : Chain) (buf s : List Byte), buf.length ≤ 63 → s.length ≤ 8 →
    (absorb st buf s).1 = st ∨ (absorb st buf s).1 = compress st ((buf ++ s).take 64))

/-- Chunking does not change the result: appending any chunks one after another, empty ones and none at all allowed,
leaves the `ST`, `BUF` and `LEN` of appending their concatenation once (R111). -/
def Obligations.ChunkingNeverChangesTheResult : Prop :=
  ∀ (c : CoreState) (chunks : List (List Byte)), c.buf.length < 64 →
    chunks.foldl (fun c bs => appendCore bs c) c = appendCore chunks.flatten c

/-- The padding of R130: the tail, 0x80, the least number of zero bytes that reaches 56 modulo 64, and the
little-endian bit length. That the 1-bit is the top bit of 0x80 is marked as general knowledge (K10). -/
def Obligations.PadFillsToLengthField : Prop :=
  ∀ (buf : List Byte) (len : Dword), ∃ (z : Nat) (v : Dword),
    pad buf len = buf ++ [0x80] ++ zeros z ++ bytes64 v ∧ v.toNat = 8 * len.toNat % 2 ^ 64 ∧
    (buf.length + 1 + z) % 64 = 56 ∧ ∀ y, (buf.length + 1 + y) % 64 = 56 → z ≤ y

/-- The one or two final blocks of R131 and their contents. -/
def Obligations.FinalBlocksOfTail : Prop :=
  ∀ (buf : List Byte) (len : Dword), buf.length ≤ 63 →
    (buf.length ≤ 55 → (pad buf len).length = 64) ∧
    (56 ≤ buf.length → (pad buf len).length = 128 ∧
      (pad buf len).take 64 = buf ++ [0x80] ++ zeros (63 - buf.length) ∧
      (pad buf len).drop 64 = zeros 56 ++ bytes64 (bitLen len))

/-! ### Bytes and words -/

/-- R42: lane `j` is `DIN[8j+7:8j]`, an APPEND of `n` appends lanes 0 to `n - 1` in that order, and lanes from `n` up
are ignored. -/
def Obligations.LanesInOrder : Prop :=
  (∀ (n : BitVec 4) (din : Dword) (s : State), n.toNat ≤ 8 → s.core.fin = false →
    ∃ t, exec (.append n din) s = .next t ∧ t.core = appendCore (lanes din n.toNat) s.core) ∧
  ∀ (din : Dword) (n : Nat), n ≤ 8 →
    (lanes din n).length = n ∧
    (∀ j, j < n → (lanes din n)[j]? = some (BitVec.ofNat 8 (din.toNat / 2 ^ (8 * j)))) ∧
    (∀ din' : Dword, din'.toNat % 2 ^ (8 * n) = din.toNat % 2 ^ (8 * n) → lanes din' n = lanes din n)

/-- R13: the three little-endian conversions, as numbers, and that they invert each other. -/
def Obligations.LittleEndianConversions : Prop :=
  (∀ b0 b1 b2 b3 : Byte, (le32 b0 b1 b2 b3).toNat =
    b0.toNat + 2 ^ 8 * b1.toNat + 2 ^ 16 * b2.toNat + 2 ^ 24 * b3.toNat) ∧
  (∀ w : Word, ∃ b0 b1 b2 b3 : Byte, bytes32 w = [b0, b1, b2, b3] ∧ le32 b0 b1 b2 b3 = w) ∧
  (∀ b0 b1 b2 b3 : Byte, bytes32 (le32 b0 b1 b2 b3) = [b0, b1, b2, b3]) ∧
  (∀ v : Dword, (bytes64 v).length = 8 ∧
    ∀ k, k < 8 → (bytes64 v)[k]? = some (BitVec.ofNat 8 (v.toNat / 2 ^ (8 * k))))

/-- The digest is A, B, C, D little-endian, and its byte `k` stands at bits `8k+7:8k` of `RSP_DATA`; as a number it is
`ST.A | ST.B << 32 | ST.C << 64 | ST.D << 96` (R67, R132). -/
def Obligations.DigestPackedByLanes : Prop :=
  ∀ st : Chain,
    (digestBytes st).length = 16 ∧
    unpackDigest (digestData st) = digestBytes st ∧
    digestData st = st.a.setWidth 128 ||| st.b.setWidth 128 <<< 32 ||| st.c.setWidth 128 <<< 64 |||
      st.d.setWidth 128 <<< 96 ∧
    (digestBytes st)[0]? = some (st.a.extractLsb' 0 8) ∧ (digestBytes st)[15]? = some (st.d.extractLsb' 24 8)

/-- A host that fills `DIN` from a little-endian word feeds the bytes in address order, from a big-endian word in
reverse order (R43). -/
def Obligations.HostWordOrder : Prop :=
  ∀ bs : List Byte, bs.length = 8 → lanes (wordLE bs) 8 = bs ∧ lanes (wordBE bs) 8 = bs.reverse

/-! ### The compressor -/

/-- R81: the sixteen message words of a 64-byte block, and the example. -/
def Obligations.MessageWordsLittleEndian : Prop :=
  le32 0x61 0x62 0x63 0x80 = 0x80636261 ∧
  ∀ blk : List Byte, blk.length = 64 →
    (blockWords blk).length = 16 ∧
    ∀ j, j < 16 → (blockWords blk)[j]? =
      some (le32 (blk.getD (4 * j) 0) (blk.getD (4 * j + 1) 0) (blk.getD (4 * j + 2) 0) (blk.getD (4 * j + 3) 0))

/-- The round functions bit by bit, as the truth tables of R82 to R85 give them. The spec marks them "from general
knowledge, not in source" (K4; log entry 10). -/
def Obligations.RoundFunctionsBitwise : Prop :=
  ∀ (x y z : Word) (t : Nat), t < 32 →
    ((roundF x y z).getLsbD t = if x.getLsbD t then y.getLsbD t else z.getLsbD t) ∧
    ((roundG x y z).getLsbD t = if z.getLsbD t then x.getLsbD t else y.getLsbD t) ∧
    ((roundH x y z).getLsbD t =
      decide (([x.getLsbD t, y.getLsbD t, z.getLsbD t].count true) % 2 = 1)) ∧
    ((roundI x y z).getLsbD t = (y.getLsbD t != (x.getLsbD t || !z.getLsbD t)))

/-- `rotl32` moves bit `t` to bit `t + s` modulo 32 for every amount the rule allows (R11), and every step's amount is
one of them. The amounts are R89's, which the spec marks "from general knowledge, not in source" (K8; log entry 10). -/
def Obligations.RotationMovesBits : Prop :=
  (∀ (x : Word) (s t : Nat), 1 ≤ s → s ≤ 31 → t < 32 →
    (rotl32 x s).getLsbD ((t + s) % 32) = x.getLsbD t) ∧
  ∀ i, i < 64 → 4 ≤ rotAmount i ∧ rotAmount i ≤ 23

/-- The tables of R88 and R89, and that each round reads every message word once. The spec marks them "from general
knowledge, not in source" (K7, K8; log entry 10). -/
def Obligations.StepTablesOfEachRound : Prop :=
  (List.range 64).map wordIndex =
    [0, 1, 2, 3, 4, 5, 6, 7, 8, 9, 10, 11, 12, 13, 14, 15] ++
    [1, 6, 11, 0, 5, 10, 15, 4, 9, 14, 3, 8, 13, 2, 7, 12] ++
    [5, 8, 11, 14, 1, 4, 7, 10, 13, 0, 3, 6, 9, 12, 15, 2] ++
    [0, 7, 14, 5, 12, 3, 10, 1, 8, 15, 6, 13, 4, 11, 2, 9] ∧
  (∀ r, r < 4 → ((List.range 16).map fun j => wordIndex (16 * r + j)).Perm (List.range 16)) ∧
  ∀ i, i < 16 →
    rotAmount i = [7, 12, 17, 22].getD (i % 4) 0 ∧ rotAmount (16 + i) = [5, 9, 14, 20].getD (i % 4) 0 ∧
    rotAmount (32 + i) = [4, 11, 16, 23].getD (i % 4) 0 ∧ rotAmount (48 + i) = [6, 10, 15, 21].getD (i % 4) 0

/-- The rotating form of the compression equals RFC 1321's fixed-name form (R91, marked as general knowledge, K9). -/
def Obligations.CompressEqualsFixedNameForm : Prop :=
  ∀ (st : Chain) (blk : List Byte), compress st blk = rfcCompress st blk

/-- The worked examples of R91 and R95, and the corner case of V13 with every word and byte all ones. They rest on the
constants of log entry 10. -/
def Obligations.CompressWorkedExamples : Prop :=
  compressStep (blockWords (0x80 :: zeros 63)) Chain.iv 0 =
    ⟨0x10325476, 0xA5202774, 0xEFCDAB89, 0x98BADCFE⟩ ∧
  compress Chain.iv (0x80 :: zeros 63) = ⟨0xD98C1DD4, 0x04B2008F, 0x980980E9, 0x7E42F8EC⟩ ∧
  compress ⟨0xFFFFFFFF, 0xFFFFFFFF, 0xFFFFFFFF, 0xFFFFFFFF⟩ (List.replicate 64 0xFF) =
    ⟨0x6CBA9129, 0x29FFD12A, 0x8B9BB7D3, 0xA9A0A3C1⟩

/-! ### Invariants and the stream -/

/-- The reset state meets the invariant and stands for the empty stream. -/
def Obligations.ResetMeetsInvariant : Prop :=
  State.reset.Inv ∧ Represents Stream.fresh State.reset.core

/-- Every step keeps the invariant: fewer than 64 bytes buffered in both phases, an empty buffer once FINALIZED, and a
legal `STATUS` whose `ECODE` is 0 exactly when `ERR` is 0 (R25, R27, R32). -/
def Obligations.StepKeepsInvariant : Prop :=
  ∀ s t : State, s.Inv → step s = .next t → t.Inv

/-- Refinement: the core's state stands for the stream of the bytes of the OK APPENDs since the last INIT or reset, and
every step keeps it so (R31, R32). -/
def Obligations.StepFollowsStream : Prop :=
  ∀ (g : Stream) (s t : State) (x : HostInput) (rest : List HostInput), Represents g s.core →
    s.host = x :: rest → step s = .next t → Represents (g.afterInput x) t.core

/-- For an ACTIVE stream whose bytes are `m`, which has no result yet, FINALIZE returns `MD5(m)`, the result of the
stream it ends; READ_DIGEST returns the result of a finalized stream (R136, R155). -/
def Obligations.DigestIsMd5OfStream : Prop :=
  ∀ (g : Stream) (s : State), Represents g s.core →
    (g.done = false → g.result = none ∧ ∃ t, exec .finalize s = .next t ∧
      t.rsp = s.rsp ++ [⟨0, packBytes (md5 g.msg)⟩] ∧ (g.after .finalize).result = some (md5 g.msg)) ∧
    (g.done = true → ∃ t dg, g.result = some dg ∧ exec .rddig s = .next t ∧ t.rsp = s.rsp ++ [⟨0, packBytes dg⟩])

/-- Feeding any byte sequence as `feed s` leaves an ACTIVE core as appending all of it at once does, with one OK
response per command (R72, R151). That the host's index advances by the number of commands is R24 with log entry 3. -/
def Obligations.FeedAppendsWholeSequence : Prop :=
  ∀ (s : State) (m : List Byte) (rest : List HostInput), s.core.fin = false →
    s.host = (feed m).map .command ++ rest →
    runFor (feed m).length s = .next
      ⟨appendCore m s.core, s.rsp ++ List.replicate (feed m).length ⟨0, 0⟩, rest, s.hostIndex + (feed m).length⟩

/-- One-shot digest: from any state, the commands of `digest m` end with the digest `MD5(m)` as the last response
(R152, R72). -/
def Obligations.OneShotDigest : Prop :=
  ∀ (s : State) (m : List Byte) (rest : List HostInput), s.host = (digestScript m).map .command ++ rest →
    ∃ t, runFor (digestScript m).length s = .next t ∧ t.host = rest ∧ t.core.fin = true ∧ t.core.err = false ∧
      t.rsp = s.rsp ++ List.replicate ((feed m).length + 1) ⟨0, 0⟩ ++ [⟨0, packBytes (md5 m)⟩]

/-! ### The host's side and several instances -/

/-- The command text of R71 and three of the pseudo-commands of R72, with the words and data words the spec gives them.
The lexical form of the lines (numbers, blanks, quotes), and that `append 9, 0` is no command text, are the model's
choice (DESIGN CHOICE, log entry 12). -/
def Obligations.CommandTextEncodes : Prop :=
  assembleText "status".toList = some [⟨0x00000000, 0⟩] ∧
  assembleText "init ; a fresh stream".toList = some [⟨0x10000000, 0⟩] ∧
  assembleText "append 3, 0x636261".toList = some [⟨0x23000000, 0x636261⟩] ∧
  assembleText "append 9, 0".toList = none ∧
  assembleText "finalize".toList = some [⟨0x30000000, 0⟩] ∧
  assembleText "rddig".toList = some [⟨0x40000000, 0⟩] ∧
  assembleText ".word 0xFFFFFFFF, 1".toList = some [⟨0xFFFFFFFF, 1⟩] ∧
  assembleText "append.b 97, 98, 99".toList = some [⟨0x23000000, 0x636261⟩] ∧
  assembleText "append.s \"abc\"".toList = some [⟨0x23000000, 0x636261⟩] ∧
  assembleText "digest \"abc\"".toList = some [⟨0x10000000, 0⟩, ⟨0x23000000, 0x636261⟩, ⟨0x30000000, 0⟩]

/-- Hexadecimal text has two digits a byte, parses back to the bytes in either case, and the two cases differ only in
letter case (R156, R157). The spec says so of the 16 bytes of a digest; that other lengths are rendered and parsed in the
same way is log entry 16. -/
def Obligations.HexRoundTrip : Prop :=
  ∀ dg : List Byte,
    (∀ upper, parseHex (renderHex upper dg) = some dg ∧ (renderHex upper dg).length = 2 * dg.length) ∧
    (renderHex true dg).map Char.toLower = renderHex false dg

/-- Instances are independent: a step of one leaves every other as it was, and steps of two instances give the same
result in either order (R183). That instances are a list of which one steps at a time is log entry 14. -/
def Obligations.InstancesIndependent : Prop :=
  (∀ (k : Nat) (ss ts : List State), stepInstance k ss = .next ts →
    ts.length = ss.length ∧ ∀ j, j ≠ k → ts[j]? = ss[j]?) ∧
  (∀ (j k : Nat) (ss ts us : List State), j ≠ k → stepInstance j ss = .next ts → stepInstance k ts = .next us →
    ∃ vs, stepInstance k ss = .next vs ∧ stepInstance j vs = .next us)
end

