-- ==== Sys2Proof/Laws/Decode.lean ====
section
/-!
SUPPORT. The decoder in terms of the three fields as numbers (spec/30_encoding.md rules R61, R68).
-/

namespace Sys2Proof.Machine

/-- The bit fields of the command word are the numbers `opNum`, `cntNum` and `rsvNum`. -/
theorem fields_toNat (c : Command) :
    (opField c.cmd).toNat = opNum c ∧ (cntField c.cmd).toNat = cntNum c ∧ (rsvField c.cmd).toNat = rsvNum c := by
  have := c.cmd.isLt
  simp [opField, cntField, rsvField, opNum, cntNum, rsvNum, BitVec.extractLsb'_toNat, Nat.shiftRight_eq_div_pow]
  omega

theorem opNum_lt (c : Command) : opNum c < 16 := by
  have := c.cmd.isLt
  unfold opNum; omega

theorem cntNum_lt (c : Command) : cntNum c < 16 := by unfold cntNum; omega

/-- The command word put together from its fields. -/
theorem cmd_toNat (c : Command) : c.cmd.toNat = opNum c * 2 ^ 28 + cntNum c * 2 ^ 24 + rsvNum c := by
  unfold opNum cntNum rsvNum; omega

/-- `decode` with its tests on numbers. -/
theorem decode_num (c : Command) : decode c =
    if 5 ≤ opNum c then .reject .eOpcode
    else if rsvNum c ≠ 0 then .reject .eField
    else if opNum c = 2 ∧ 8 < cntNum c then .reject .eField
    else if opNum c ≠ 2 ∧ cntNum c ≠ 0 then .reject .eField
    else if opNum c = 0 then .instr .status
    else if opNum c = 1 then .instr .init
    else if opNum c = 2 then .instr (.append (BitVec.ofNat 4 (cntNum c)) c.din)
    else if opNum c = 3 then .instr .finalize
    else .instr .rddig := by
  obtain ⟨ho, hc, hr⟩ := fields_toNat c
  have op_iff : ∀ k : Nat, k < 16 → (opField c.cmd = BitVec.ofNat 4 k ↔ opNum c = k) := by
    intro k hk
    rw [← ho, ← BitVec.toNat_inj]
    simp [Nat.mod_eq_of_lt hk]
  have cnt_iff : cntField c.cmd = 0 ↔ cntNum c = 0 := by rw [← hc, ← BitVec.toNat_inj]; simp
  have rsv_iff : rsvField c.cmd = 0 ↔ rsvNum c = 0 := by rw [← hr, ← BitVec.toNat_inj]; simp
  have cnt_eq : BitVec.ofNat 4 (cntNum c) = cntField c.cmd := by rw [← hc]; simp
  have h0 := op_iff 0 (by omega)
  have h1 := op_iff 1 (by omega)
  have h2 := op_iff 2 (by omega)
  have h3 := op_iff 3 (by omega)
  simp only [decode, ho, hc, cnt_iff, rsv_iff, cnt_eq, ne_eq] at *
  simp_all

/-- The only errors of decoding are `E_OPCODE` and `E_FIELD`. -/
theorem decode_reject_cases {c : Command} {e : Code} (h : decode c = .reject e) : e = .eOpcode ∨ e = .eField := by
  rw [decode_num] at h
  (repeat' split at h) <;> cases h <;> simp

/-- A rejection writes what `Rejected` says. -/
theorem rejected_reject (e : Code) (s : State) : Rejected e.bits s (reject e s) := by
  constructor <;> rfl

/-- Only `ok` has the number 0. -/
@[simp] theorem bits_eq_zero (e : Code) : e.bits = 0 ↔ e = .ok := by cases e <;> decide

end Sys2Proof.Machine
end

