-- ==== Sys2Proof/Laws/State.lean ====
section
/-!
SUPPORT. One lemma per field and update of the state, so that no later proof unfolds a record update.
-/

namespace Sys2Proof.Machine

section Respond
variable (code : Code) (data : RspData) (s : State)

@[simp] theorem respond_core : (respond code data s).core = s.core := rfl
@[simp] theorem respond_rsp : (respond code data s).rsp = s.rsp ++ [⟨code.bits, data⟩] := rfl
@[simp] theorem respond_host : (respond code data s).host = s.host := rfl
@[simp] theorem respond_hostIndex : (respond code data s).hostIndex = s.hostIndex := rfl

end Respond

section RecordError
variable (e : Code) (c : CoreState)

@[simp] theorem recordError_st : (recordError e c).st = c.st := rfl
@[simp] theorem recordError_buf : (recordError e c).buf = c.buf := rfl
@[simp] theorem recordError_len : (recordError e c).len = c.len := rfl
@[simp] theorem recordError_fin : (recordError e c).fin = c.fin := rfl
@[simp] theorem recordError_err : (recordError e c).err = true := rfl
@[simp] theorem recordError_ecode :
    (recordError e c).ecode = if c.ecode = 0 then e.bits else c.ecode := rfl

end RecordError

section Reject
variable (e : Code) (s : State)

@[simp] theorem reject_core : (reject e s).core = recordError e s.core := rfl
@[simp] theorem reject_rsp : (reject e s).rsp = s.rsp ++ [⟨e.bits, 0⟩] := rfl
@[simp] theorem reject_host : (reject e s).host = s.host := rfl
@[simp] theorem reject_hostIndex : (reject e s).hostIndex = s.hostIndex := rfl

end Reject

section Fresh

@[simp] theorem initCore_st : initCore.st = Chain.iv := rfl
@[simp] theorem initCore_buf : initCore.buf = [] := rfl
@[simp] theorem initCore_len : initCore.len = 0 := rfl
@[simp] theorem initCore_fin : initCore.fin = false := rfl
@[simp] theorem initCore_err : initCore.err = false := rfl
@[simp] theorem initCore_ecode : initCore.ecode = 0 := rfl

@[simp] theorem reset_st : CoreState.reset.st = Chain.iv := rfl
@[simp] theorem reset_buf : CoreState.reset.buf = [] := rfl
@[simp] theorem reset_len : CoreState.reset.len = 0 := rfl
@[simp] theorem reset_fin : CoreState.reset.fin = false := rfl
@[simp] theorem reset_err : CoreState.reset.err = false := rfl
@[simp] theorem reset_ecode : CoreState.reset.ecode = 0 := rfl

@[simp] theorem state_reset_core : State.reset.core = CoreState.reset := rfl
@[simp] theorem state_reset_rsp : State.reset.rsp = [] := rfl
@[simp] theorem state_reset_host : State.reset.host = [] := rfl
@[simp] theorem state_reset_hostIndex : State.reset.hostIndex = 0 := rfl

end Fresh

section Port
variable (rest : List HostInput) (c : Command) (s : State)

@[simp] theorem takeReset_core : (takeReset s).core = CoreState.reset := rfl
@[simp] theorem takeReset_rsp : (takeReset s).rsp = s.rsp := rfl
@[simp] theorem takeReset_host : (takeReset s).host = s.host := rfl
@[simp] theorem takeReset_hostIndex : (takeReset s).hostIndex = s.hostIndex := rfl

@[simp] theorem dropInput_core : (dropInput rest s).core = s.core := rfl
@[simp] theorem dropInput_rsp : (dropInput rest s).rsp = s.rsp := rfl
@[simp] theorem dropInput_host : (dropInput rest s).host = rest := rfl
@[simp] theorem dropInput_hostIndex : (dropInput rest s).hostIndex = s.hostIndex := rfl

@[simp] theorem issue_core : (issue rest s).core = s.core := rfl
@[simp] theorem issue_rsp : (issue rest s).rsp = s.rsp := rfl
@[simp] theorem issue_host : (issue rest s).host = rest := rfl
@[simp] theorem issue_hostIndex : (issue rest s).hostIndex = s.hostIndex + 1 := rfl

@[simp] theorem interruptedByReset_core : (interruptedByReset c s).core = CoreState.reset := rfl
@[simp] theorem interruptedByReset_rsp : (interruptedByReset c s).rsp = s.rsp := rfl
@[simp] theorem interruptedByReset_host : (interruptedByReset c s).host = s.host := rfl
@[simp] theorem interruptedByReset_hostIndex : (interruptedByReset c s).hostIndex = s.hostIndex := rfl

@[simp] theorem offer_core : (offer c s).core = s.core := rfl
@[simp] theorem offer_rsp : (offer c s).rsp = s.rsp := rfl
@[simp] theorem offer_host : (offer c s).host = .command c :: s.host := rfl
@[simp] theorem offer_hostIndex : (offer c s).hostIndex = s.hostIndex := rfl

end Port

section Stream
variable (bs : List Byte) (c : CoreState)

@[simp] theorem appendCore_st : (appendCore bs c).st = (absorb c.st c.buf bs).1 := rfl
@[simp] theorem appendCore_buf : (appendCore bs c).buf = (absorb c.st c.buf bs).2 := rfl
@[simp] theorem appendCore_len : (appendCore bs c).len = countBytes c.len bs.length := rfl
@[simp] theorem appendCore_fin : (appendCore bs c).fin = c.fin := rfl
@[simp] theorem appendCore_err : (appendCore bs c).err = c.err := rfl
@[simp] theorem appendCore_ecode : (appendCore bs c).ecode = c.ecode := rfl

@[simp] theorem finalizeCore_st : (finalizeCore c).st = compressFinal c.st (pad c.buf c.len) := rfl
@[simp] theorem finalizeCore_buf : (finalizeCore c).buf = [] := rfl
@[simp] theorem finalizeCore_len : (finalizeCore c).len = c.len := rfl
@[simp] theorem finalizeCore_fin : (finalizeCore c).fin = true := rfl
@[simp] theorem finalizeCore_err : (finalizeCore c).err = c.err := rfl
@[simp] theorem finalizeCore_ecode : (finalizeCore c).ecode = c.ecode := rfl

end Stream

end Sys2Proof.Machine
end

