-- ==== Sys2Proof/Laws/Ops.lean ====
section
/-!
SUPPORT. What each shared operation can do, said once: `absorb`, the padding, the lanes, the digest, the meanings and
the step. Later proofs cite these and do not unfold the operations.
-/

namespace Sys2Proof.Machine

/-! ### Lengths -/

@[simp] theorem zeros_length (n : Nat) : (zeros n).length = n := by simp [zeros]

@[simp] theorem bytes32_length (w : Word) : (bytes32 w).length = 4 := rfl

@[simp] theorem bytes64_length (v : Dword) : (bytes64 v).length = 8 := rfl

@[simp] theorem lanes_length (din : Dword) (n : Nat) : (lanes din n).length = n := by simp [lanes]

@[simp] theorem digestBytes_length (st : Chain) : (digestBytes st).length = 16 := rfl

@[simp] theorem lanes_zero (din : Dword) : lanes din 0 = [] := rfl

theorem padZeros_lt (tail : Nat) : padZeros tail < 64 := by unfold padZeros; omega

theorem padZeros_congr (tail : Nat) : (tail + 1 + padZeros tail) % 64 = 56 := by unfold padZeros; omega

theorem pad_length (buf : List Byte) (len : Dword) :
    (pad buf len).length = buf.length + 1 + padZeros buf.length + 8 := by
  simp [pad]; omega

/-! ### Absorbing -/

theorem absorbBlocks_of_lt (k : Nat) (st : Chain) (w : List Byte) (h : w.length < 64) :
    absorbBlocks k st w = (st, w) := by
  cases k with
  | zero => rfl
  | succ k => simp [absorbBlocks, Nat.not_le.mpr h]

theorem absorbBlocks_of_ge (k : Nat) (st : Chain) (w : List Byte) (h : 64 ≤ w.length) :
    absorbBlocks (k + 1) st w = absorbBlocks k (compress st (w.take 64)) (w.drop 64) := by
  simp [absorbBlocks, h]

/-- More turns than there are whole blocks change nothing. -/
theorem absorbBlocks_enough (k : Nat) : ∀ (st : Chain) (w : List Byte), w.length / 64 ≤ k →
    absorbBlocks k st w = absorbBlocks (w.length / 64) st w := by
  induction k with
  | zero => intro st w h; rw [Nat.le_zero.mp h]
  | succ k ih =>
    intro st w h
    by_cases hw : 64 ≤ w.length
    · obtain ⟨j, hj⟩ : ∃ j, w.length / 64 = j + 1 := ⟨w.length / 64 - 1, by omega⟩
      have hd : (w.drop 64).length / 64 = j := by simp; omega
      rw [hj, absorbBlocks_of_ge k st w hw, absorbBlocks_of_ge j st w hw, ih _ _ (by omega), hd]
    · rw [absorbBlocks_of_lt _ _ _ (by omega), absorbBlocks_of_lt _ _ _ (by omega)]

/-- What is left after the loop of `absorb`: the bytes after the last whole block. -/
theorem absorbBlocks_rest (k : Nat) : ∀ (st : Chain) (w : List Byte), k = w.length / 64 →
    (absorbBlocks k st w).2 = w.drop (64 * k) := by
  induction k with
  | zero => intro st w _; simp [absorbBlocks]
  | succ k ih =>
    intro st w h
    rw [absorbBlocks_of_ge k st w (by omega), ih _ _ (by simp; omega), List.drop_drop]
    congr 1; omega

theorem absorb_of_lt (st : Chain) (buf s : List Byte) (h : (buf ++ s).length < 64) :
    absorb st buf s = (st, buf ++ s) := absorbBlocks_of_lt _ _ _ h

theorem absorb_rest (st : Chain) (buf s : List Byte) :
    (absorb st buf s).2 = (buf ++ s).drop (64 * ((buf ++ s).length / 64)) :=
  absorbBlocks_rest _ _ _ rfl

/-- Fewer than 64 bytes stay buffered, whatever the state. -/
theorem absorb_rest_length (st : Chain) (buf s : List Byte) : (absorb st buf s).2.length < 64 := by
  rw [absorb_rest, List.length_drop]; omega

/-! ### Meanings -/

theorem execAppend_count (n : BitVec 4) (din : Dword) (s : State) (h : 8 < n.toNat) :
    execAppend n din s = .next (reject .eField s) := by simp [execAppend, h]

theorem execAppend_final (n : BitVec 4) (din : Dword) (s : State) (hn : n.toNat ≤ 8) (h : s.core.fin = true) :
    execAppend n din s = .next (reject .eAppendFinal s) := by simp [execAppend, Nat.not_lt.mpr hn, h]

theorem execAppend_active (n : BitVec 4) (din : Dword) (s : State) (hn : n.toNat ≤ 8) (h : s.core.fin = false) :
    execAppend n din s =
      .next (respond .ok 0 { s with core := appendCore (lanes din n.toNat) s.core }) := by
  simp [execAppend, Nat.not_lt.mpr hn, h]

theorem execFinalize_final (s : State) (h : s.core.fin = true) :
    execFinalize s = .next (reject .eFinalTwice s) := by simp [execFinalize, h]

theorem execFinalize_active (s : State) (h : s.core.fin = false) :
    execFinalize s =
      .next (respond .ok (digestData (finalizeCore s.core).st) { s with core := finalizeCore s.core }) := by
  simp [execFinalize, h]

theorem execRddig_final (s : State) (h : s.core.fin = true) :
    execRddig s = .next (respond .ok (digestData s.core.st) s) := by simp [execRddig, h]

theorem execRddig_active (s : State) (h : s.core.fin = false) :
    execRddig s = .next (reject .eReadEarly s) := by simp [execRddig, h]

/-- Everything a command can do: it is rejected with one of three codes, or it is performed with the core's next state
and the response its rule gives. -/
theorem exec_cases {i : Instr} {s t : State} (h : exec i s = .next t) :
    (∃ e, t = reject e s ∧
      ((e = .eField ∧ ∃ n din, i = .append n din ∧ 8 < n.toNat) ∨
       (e = .eAppendFinal ∧ s.core.fin = true ∧ ∃ n din, i = .append n din ∧ n.toNat ≤ 8) ∨
       (e = .eFinalTwice ∧ s.core.fin = true ∧ i = .finalize) ∨
       (e = .eReadEarly ∧ s.core.fin = false ∧ i = .rddig))) ∨
    (i = .status ∧ t = respond .ok ((statusReg s.core).setWidth 128) s) ∨
    (i = .init ∧ t = respond .ok 0 { s with core := initCore }) ∨
    (∃ n din, i = .append n din ∧ n.toNat ≤ 8 ∧ s.core.fin = false ∧
      t = respond .ok 0 { s with core := appendCore (lanes din n.toNat) s.core }) ∨
    (i = .finalize ∧ s.core.fin = false ∧
      t = respond .ok (digestData (finalizeCore s.core).st) { s with core := finalizeCore s.core }) ∨
    (i = .rddig ∧ s.core.fin = true ∧ t = respond .ok (digestData s.core.st) s) := by
  cases i with
  | status =>
    obtain rfl : _ = t := by simpa [exec, execStatus] using h
    exact .inr (.inl ⟨rfl, rfl⟩)
  | init =>
    obtain rfl : _ = t := by simpa [exec, execInit] using h
    exact .inr (.inr (.inl ⟨rfl, rfl⟩))
  | append n din =>
    replace h : execAppend n din s = .next t := h
    by_cases hn : 8 < n.toNat
    · rw [execAppend_count n din s hn] at h
      cases h
      exact .inl ⟨_, rfl, .inl ⟨rfl, n, din, rfl, hn⟩⟩
    · have hn' := Nat.not_lt.mp hn
      cases hf : s.core.fin with
      | true =>
        rw [execAppend_final n din s hn' hf] at h
        cases h
        exact .inl ⟨_, rfl, .inr (.inl ⟨rfl, rfl, n, din, rfl, hn'⟩)⟩
      | false =>
        rw [execAppend_active n din s hn' hf] at h
        cases h
        exact .inr (.inr (.inr (.inl ⟨n, din, rfl, hn', rfl, rfl⟩)))
  | finalize =>
    replace h : execFinalize s = .next t := h
    cases hf : s.core.fin with
    | true =>
      rw [execFinalize_final s hf] at h
      cases h
      exact .inl ⟨_, rfl, .inr (.inr (.inl ⟨rfl, rfl, rfl⟩))⟩
    | false =>
      rw [execFinalize_active s hf] at h
      cases h
      exact .inr (.inr (.inr (.inr (.inl ⟨rfl, rfl, rfl⟩))))
  | rddig =>
    replace h : execRddig s = .next t := h
    cases hf : s.core.fin with
    | true =>
      rw [execRddig_final s hf] at h
      cases h
      exact .inr (.inr (.inr (.inr (.inr ⟨rfl, rfl, rfl⟩))))
    | false =>
      rw [execRddig_active s hf] at h
      cases h
      exact .inl ⟨_, rfl, .inr (.inr (.inr ⟨rfl, rfl, rfl⟩))⟩

/-! ### The step, by the host's next input -/

theorem serve_instr (c : Command) (i : Instr) (s : State) (h : decode c = .instr i) :
    serve c s = exec i s := by simp [serve, h]

theorem serve_reject (c : Command) (e : Code) (s : State) (h : decode c = .reject e) :
    serve c s = .next (reject e s) := by simp [serve, h]

theorem step_reset (s : State) (rest : List HostInput) (h : s.host = .reset :: rest) :
    step s = .next (takeReset (dropInput rest s)) := by simp [step, takeInput, h]

theorem step_commandReset (s : State) (c : Command) (rest : List HostInput) (h : s.host = .commandReset c :: rest) :
    step s = .next (interruptedByReset c (issue rest s)) := by simp [step, takeInput, h]

theorem step_command (s : State) (c : Command) (rest : List HostInput) (h : s.host = .command c :: rest) :
    step s = serve c (issue rest s) := by simp [step, takeInput, h]

end Sys2Proof.Machine
end

