-- ==== Sys2Proof/Laws/PerInstr.lean ====
section
/-!
SUPPORT. Facts made command by command. Family `EncodedFields`: the word of a well-formed command has `RSV = 0`, an
opcode below 5, and `CNT = 0` unless it is an APPEND (spec/30_encoding.md rules R61 to R64).
-/

namespace Sys2Proof.Laws

/-- The fields of the encoded word of a command. -/
def EncodedFields.Statement (i : Instr) : Prop :=
  i.wf = true →
    rsvField (encode i).cmd = 0 ∧ (opField (encode i).cmd).toNat < 5 ∧
    (opField (encode i).cmd ≠ 2 → cntField (encode i).cmd = 0) ∧ (cntField (encode i).cmd).toNat ≤ 8

theorem EncodedFields.status : EncodedFields.Statement .status := fun _ => by decide

theorem EncodedFields.init : EncodedFields.Statement .init := fun _ => by decide

/-- The three fields of a word assembled from an opcode and a count. -/
theorem commandWord_fields : ∀ op cnt : BitVec 4,
    opField (commandWord op cnt) = op ∧ cntField (commandWord op cnt) = cnt ∧ rsvField (commandWord op cnt) = 0 := by
  decide +kernel

theorem EncodedFields.append (n : BitVec 4) (din : Dword) : EncodedFields.Statement (.append n din) := by
  intro h
  obtain ⟨ho, hc, hr⟩ := commandWord_fields 2 n
  have hn : n.toNat ≤ 8 := by simpa [Instr.wf] using h
  have ho' : (opField (encode (.append n din)).cmd).toNat < 5 := by
    rw [show (encode (.append n din)).cmd = commandWord 2 n from rfl, ho]; decide
  have hc' : (cntField (encode (.append n din)).cmd).toNat ≤ 8 := by
    rw [show (encode (.append n din)).cmd = commandWord 2 n from rfl, hc]; exact hn
  exact ⟨hr, ho', fun hne => absurd ho hne, hc'⟩

theorem EncodedFields.finalize : EncodedFields.Statement .finalize := fun _ => by decide

theorem EncodedFields.rddig : EncodedFields.Statement .rddig := fun _ => by decide

end Sys2Proof.Laws
end

