-- ==== Sys2Proof/Tests/Slice0.lean ====
section
/-!
SUPPORT. Tests of the model and witnesses of the statements' hypotheses. Expected values are written out from the
spec: the encoding tables of 30_encoding.md, the worked examples of the rules, and the vectors of 95_test_vectors.md
(named V<n>).
-/

namespace Sys2Proof.Tests

open Sys2Proof.Machine

/-! ### Helpers -/

/-- The core after a step, where there is a next state. -/
def coreAfter (o : Host.Outcome State Fault Refusal) : Option CoreState :=
  match o with
  | .next s => some s.core
  | _ => none

/-- The responses after a step, where there is a next state. -/
def rspAfter (o : Host.Outcome State Fault Refusal) : Option (List Response) :=
  match o with
  | .next s => some s.rsp
  | _ => none

/-- The reset state with inputs of the host. -/
def hosted (xs : List HostInput) : State := { State.reset with host := xs }

/-- The reset state with a core of the test's own. -/
def withCore (c : CoreState) (xs : List HostInput) : State := { hosted xs with core := c }

/-- An ACTIVE core with a buffered tail. -/
def activeCore (buf : List Byte) (len : Dword) : CoreState := { CoreState.reset with buf := buf, len := len }

/-- A FINALIZED core with the state of V1. -/
def finalCore : CoreState :=
  { CoreState.reset with st := ⟨0xD98C1DD4, 0x04B2008F, 0x980980E9, 0x7E42F8EC⟩, fin := true }

/-! ### Well-formedness -/

theorem test_wf_refuses_count_9 : (Instr.append 9 0).wf = false := by decide

theorem test_wf_admits_count_8 : (Instr.append 8 0).wf = true := by decide

/-! ### Decoding, from the opcode map of R62 and V8 -/

theorem test_decode_status : decode ⟨0b0000_0000_000000000000000000000000, 0⟩ = .instr .status := by decide

theorem test_decode_init : decode ⟨0b0001_0000_000000000000000000000000, 0⟩ = .instr .init := by decide

theorem test_decode_append_5 :
    decode ⟨0b0010_0101_000000000000000000000000, 0xAB⟩ = .instr (.append 5 0xAB) := by decide

theorem test_decode_finalize : decode ⟨0b0011_0000_000000000000000000000000, 0⟩ = .instr .finalize := by decide

theorem test_decode_rddig : decode ⟨0b0100_0000_000000000000000000000000, 0⟩ = .instr .rddig := by decide

theorem test_decode_rejects :
    [0x29000000, 0x2F000000, 0x20000001, 0x01000000, 0x30800000, 0x50000000, 0xFFFFFFFF].map
      (fun w => decode ⟨w, 0⟩) =
    [.reject .eField, .reject .eField, .reject .eField, .reject .eField, .reject .eField, .reject .eOpcode,
      .reject .eOpcode] := by decide

theorem test_table_words :
    [0x00000000, 0x10000000, 0x20000000, 0x30000000, 0x40000000].map (decodeTableWord 32) =
    [some .status, some .init, some (.append 0 0), some .finalize, some .rddig] := by decide +kernel

/-- The data word follows the command word: `append 3, 0x636261`. -/
theorem test_table_word_with_data :
    decodeTableWord 96 0x000000000063626123000000 = some (.append 3 0x636261) := by decide +kernel

theorem test_table_word_reserved : decodeTableWord 32 0x50000000 = none := by decide +kernel

/-- A fetched word runs as the very next step: R113's response. -/
theorem test_fetch_runs_init :
    rspAfter (step (State.reset.withFetchWord 32 0x10000000)) = some [⟨0, 0⟩] := by decide +kernel

/-! ### Primitives and the compressor, V9 to V14 -/

/-- V9, fifth row. -/
theorem test_round_functions :
    let x : Word := 0xF0F0F0F0
    let y : Word := 0xCCCCCCCC
    let z : Word := 0xAAAAAAAA
    (roundF x y z, roundG x y z, roundH x y z, roundI x y z) =
      (0xCACACACA, 0xE4E4E4E4, 0x96969696, 0x39393939) := by decide +kernel

/-- V9, the rotations. -/
theorem test_rotl32 :
    (rotl32 0x80000001 7, rotl32 0x12345678 4, rotl32 0x12345678 23) = (0x000000C0, 0x23456781, 0x3C091A2B) := by
  decide +kernel

/-- V14. -/
theorem test_message_words :
    let x := blockWords ((List.range 64).map (BitVec.ofNat 8))
    (x.length, x.getD 0 0, x.getD 1 0, x.getD 15 0) = (16, 0x03020100, 0x07060504, 0x3F3E3D3C) := by decide +kernel

/-- V10: after steps 0, 16, 32, 48 and 63 of the empty-message block. -/
theorem test_step_trace :
    [1, 17, 33, 49, 64].map (runSteps (blockWords (0x80 :: zeros 63)) Chain.iv) =
    [⟨0x10325476, 0xA5202774, 0xEFCDAB89, 0x98BADCFE⟩, ⟨0x374943A7, 0x1C7D7513, 0xD6819C6A, 0x5AA53F75⟩,
     ⟨0xAE7813DB, 0xDF63EAA1, 0xA2205F1F, 0x1C31C384⟩, ⟨0x22A31F54, 0x93AA2577, 0xCA7D2DBD, 0x68D84EA2⟩,
     ⟨0x7246FAD3, 0x14E45506, 0xFF4EA3EB, 0x6E10A476⟩] := by decide +kernel

/-- V11 and V1. -/
theorem test_compress_empty_block :
    compress Chain.iv (0x80 :: zeros 63) = ⟨0xD98C1DD4, 0x04B2008F, 0x980980E9, 0x7E42F8EC⟩ := by decide +kernel

/-- V13, rows 1 and 4. -/
theorem test_compress_corners :
    compress ⟨0, 0, 0, 0⟩ (zeros 64) = ⟨0xF7CD1C97, 0xA5483681, 0x2B68D832, 0xF90CA639⟩ ∧
    compress Chain.iv ((List.range 64).map (BitVec.ofNat 8)) = ⟨0x9144D9CA, 0xD901E4C9, 0x72FC5B38, 0x625FF51E⟩ := by
  decide +kernel

/-- The per-step table of R90, columns k(i) and s(i), at the first and last step of each round. -/
theorem test_step_table :
    [0, 15, 16, 31, 32, 47, 48, 63].map (fun i => (wordIndex i, rotAmount i, addConst i)) =
    [(0, 7, 0xD76AA478), (15, 22, 0x49B40821), (1, 5, 0xF61E2562), (12, 20, 0x8D2A4C8A),
     (5, 4, 0xFFFA3942), (2, 23, 0xC4AC5665), (0, 6, 0xF4292244), (9, 21, 0xEB86D391)] := by decide +kernel

/-! ### The commands -/

/-- V29: FINALIZED with first error `E_READ_EARLY` reads 0x17. -/
theorem test_status_value :
    rspAfter (exec .status (withCore { finalCore with err := true, ecode := 5 } [])) = some [⟨0, 0x17⟩] := by
  decide +kernel

/-- R113: INIT in the FINALIZED phase with an error recorded gives the reset state. -/
theorem test_init_clears_all :
    coreAfter (exec .init (withCore { finalCore with err := true, ecode := 4 } [])) = some State.reset.core := by
  decide +kernel

/-- V17, last APPEND: it completes the block 00..3F and begins the next. -/
theorem test_append_completes_block :
    coreAfter (exec (.append 8 0x434241403F3E3D3C)
      (withCore (activeCore ((List.range 60).map (BitVec.ofNat 8)) 60) [])) =
    some ⟨⟨0x9144D9CA, 0xD901E4C9, 0x72FC5B38, 0x625FF51E⟩, [0x40, 0x41, 0x42, 0x43], 68, false, false, 0⟩ := by
  decide +kernel

/-- V19 and V18: unused lanes do not matter, and the counter wraps. -/
theorem test_append_lanes_and_wrap :
    coreAfter (exec (.append 3 0xFFFFFFFFFF636261) (withCore (activeCore [] 0xFFFFFFFFFFFFFFFF) [])) =
    some (activeCore [0x61, 0x62, 0x63] 2) := by decide +kernel

/-- P1: FINALIZE from reset returns the digest of the empty message. -/
theorem test_finalize_empty :
    rspAfter (exec .finalize State.reset) = some [⟨0, 0x7E42F8EC980980E904B2008FD98C1DD4⟩] := by decide +kernel

/-- P5: a tail of 56 bytes takes two final blocks. -/
theorem test_finalize_two_blocks :
    rspAfter (exec .finalize (withCore (activeCore (List.replicate 56 0x61) 56) [])) =
    some [⟨0, 0x1872D10670196C4CB028F803C78A0C3B⟩] := by decide +kernel

/-- V1: READ_DIGEST in the FINALIZED phase. -/
theorem test_rddig_final :
    rspAfter (exec .rddig (withCore finalCore [])) = some [⟨0, 0x7E42F8EC980980E904B2008FD98C1DD4⟩] := by
  decide +kernel

/-- P4, command 1: READ_DIGEST in the ACTIVE phase is rejected, and `STATUS` reads 0x16. -/
theorem test_rddig_early :
    rspAfter (exec .rddig State.reset) = some [⟨5, 0⟩] ∧
    (coreAfter (exec .rddig State.reset)).map statusReg = some 0x16 := by decide +kernel

/-- P4, commands 6 and 7: raw words are rejected in the FINALIZED phase and the first error is kept. -/
theorem test_raw_words_rejected :
    (coreAfter (step (withCore { finalCore with err := true, ecode := 5 } [.command ⟨0x50000000, 0⟩]))).map statusReg
      = some 0x17 ∧
    rspAfter (step (withCore finalCore [.command ⟨0x29000000, 0⟩])) = some [⟨2, 0⟩] := by decide +kernel

/-- V28, rows 5 and 6. -/
theorem test_pad :
    pad (List.replicate 55 1) 55 = List.replicate 55 1 ++ [0x80, 0xB8, 0x01, 0, 0, 0, 0, 0, 0] ∧
    pad (List.replicate 56 1) 56 =
      List.replicate 56 1 ++ [0x80] ++ List.replicate 63 0 ++ [0xC0, 0x01, 0, 0, 0, 0, 0, 0] := by decide +kernel

/-- V18: the length field of `LEN = 2^61` and of `2^61 + 3`. -/
theorem test_bit_length_wraps :
    (bitLen (BitVec.ofNat 64 (2 ^ 61)), bitLen (BitVec.ofNat 64 (2 ^ 61 + 3))) = (0, 24) := by decide +kernel

/-- V22, V25 and V38 (message digests of 3, 62 and 120 bytes), through the rendering of R156. -/
theorem test_md5_reference :
    [[0x61, 0x62, 0x63], List.replicate 120 0x61].map (fun m => renderHex false (md5 m)) =
    ["900150983cd24fb0d6963f7d28e17f72".toList, "5f61c0ccad4cac44c75ff505e1f1e537".toList] := by decide +kernel

/-- V5: uppercase rendering of the response of V2. -/
theorem test_render_response :
    renderResponse true 0x727FE1287D3F96D6B04FD23C98500190 = "900150983CD24FB0D6963F7D28E17F72".toList := by
  decide +kernel

/-- The feed of V23 ("message digest"). -/
theorem test_feed_message_digest :
    assembleText "feed \"message digest\" ; V23".toList =
    some [⟨0x28000000, 0x206567617373656D⟩, ⟨0x26000000, 0x0000747365676964⟩] := by decide +kernel

/-- The feed of nothing is one `append 0, 0` (R72). -/
theorem test_feed_empty : feed [] = [⟨0x20000000, 0⟩] := by decide

/-- R194, R195: no step where the host breaks the protocol. -/
theorem test_misuse_has_no_step :
    coreAfter (step (hosted [.overlap ⟨0, 0⟩ ⟨0, 0⟩])) = none ∧ coreAfter (step (hosted [.otherIssuer ⟨0, 0⟩])) = none := by
  decide +kernel

/-! ### Witnesses of the statements' hypotheses -/

theorem witness_ResetRestoresResetState :
    (withCore finalCore [.reset, .command ⟨0x20000000, 0⟩]).host = .reset :: [.command ⟨0x20000000, 0⟩] ∧
    (0 : BitVec 4).toNat ≤ 8 ∧ (8 : BitVec 4).toNat ≤ 8 := by decide +kernel

theorem witness_ResetDiscardsRunningCommand :
    (withCore (activeCore [1] 1) [.commandReset ⟨0x30000000, 0⟩]).host = .commandReset ⟨0x30000000, 0⟩ :: [] := by
  decide +kernel

/-- One command for each clause of the priority, at the boundary values of its fields. -/
theorem witness_DecodeFollowsPriority :
    opNum ⟨0x50000000, 0⟩ = 5 ∧ opNum ⟨0xF0000000, 0⟩ = 15 ∧
    (opNum ⟨0x40000001, 0⟩ < 5 ∧ rsvNum ⟨0x40000001, 0⟩ ≠ 0) ∧
    (opNum ⟨0x00FFFFFF, 0⟩ < 5 ∧ rsvNum ⟨0x00FFFFFF, 0⟩ ≠ 0) ∧
    (opNum ⟨0x29000000, 0⟩ = 2 ∧ rsvNum ⟨0x29000000, 0⟩ = 0 ∧ 8 < cntNum ⟨0x29000000, 0⟩) ∧
    (opNum ⟨0x2F000000, 0⟩ = 2 ∧ rsvNum ⟨0x2F000000, 0⟩ = 0 ∧ 8 < cntNum ⟨0x2F000000, 0⟩) ∧
    (opNum ⟨0x41000000, 0⟩ < 5 ∧ opNum ⟨0x41000000, 0⟩ ≠ 2 ∧ rsvNum ⟨0x41000000, 0⟩ = 0 ∧
      cntNum ⟨0x41000000, 0⟩ ≠ 0) ∧
    (opNum ⟨0x00000000, 0⟩ = 0 ∧ rsvNum ⟨0x00000000, 0⟩ = 0 ∧ cntNum ⟨0x00000000, 0⟩ = 0) ∧
    (opNum ⟨0x10000000, 0⟩ = 1 ∧ rsvNum ⟨0x10000000, 0⟩ = 0 ∧ cntNum ⟨0x10000000, 0⟩ = 0) ∧
    (opNum ⟨0x20000000, 0⟩ = 2 ∧ rsvNum ⟨0x20000000, 0⟩ = 0 ∧ cntNum ⟨0x20000000, 0⟩ ≤ 8) ∧
    (opNum ⟨0x28000000, 0⟩ = 2 ∧ rsvNum ⟨0x28000000, 0⟩ = 0 ∧ cntNum ⟨0x28000000, 0⟩ ≤ 8) ∧
    (opNum ⟨0x30000000, 0⟩ = 3 ∧ rsvNum ⟨0x30000000, 0⟩ = 0 ∧ cntNum ⟨0x30000000, 0⟩ = 0) ∧
    (opNum ⟨0x40000000, 0⟩ = 4 ∧ rsvNum ⟨0x40000000, 0⟩ = 0 ∧ cntNum ⟨0x40000000, 0⟩ = 0) ∧
    ((withCore finalCore [.command ⟨0x30800000, 0⟩]).host = [.command ⟨0x30800000, 0⟩] ∧
      decode ⟨0x30800000, 0⟩ = .reject .eField) := by decide +kernel

theorem witness_EncodeThenDecode : (Instr.append 8 0xFFFFFFFFFFFFFFFF).wf = true ∧ Instr.rddig.wf = true := by decide

theorem witness_DecodeThenEncode : decode ⟨0x28000000, 7⟩ = .instr (.append 8 7) := by decide

theorem witness_StepRunsDecodedCommand :
    (hosted [.command ⟨0x23000000, 0x636261⟩]).host = .command ⟨0x23000000, 0x636261⟩ :: [] ∧
    decode ⟨0x23000000, 0x636261⟩ = .instr (.append 3 0x636261) := by decide +kernel

/-- A rejected command: its step, its one response and its nonzero code. -/
theorem witness_RejectionWritesOnlyStickyBits :
    let s := withCore finalCore [.command ⟨0x30000000, 0⟩]
    ∃ t r, s.host = .command ⟨0x30000000, 0⟩ :: [] ∧ step s = .next t ∧ t.rsp = s.rsp ++ [r] ∧ r.code ≠ 0 :=
  ⟨_, ⟨4, 0⟩, rfl, rfl, by decide +kernel, by decide⟩

theorem witness_CommandAnsweredOnce :
    (hosted [.command ⟨0xFFFFFFFF, 1⟩]).host = .command ⟨0xFFFFFFFF, 1⟩ :: [] := by decide +kernel

theorem witness_IdleCoreHoldsState : (withCore (activeCore [1] 1) []).host = [] := by decide +kernel

theorem witness_OnlyHostMisuseStops :
    (hosted [.overlap ⟨0, 0⟩ ⟨1, 1⟩]).host = .overlap ⟨0, 0⟩ ⟨1, 1⟩ :: [] ∧
    (hosted [.otherIssuer ⟨0, 0⟩]).host = .otherIssuer ⟨0, 0⟩ :: [] := by decide +kernel

theorem witness_InitStartsFreshStream :
    (hosted [.command ⟨0x11000000, 0⟩]).host = .command ⟨0x11000000, 0⟩ :: [] ∧
    opNum ⟨0x11000000, 0⟩ = 1 ∧ cntNum ⟨0x11000000, 0⟩ ≠ 0 ∧
    opNum ⟨0x10000001, 0⟩ = 1 ∧ rsvNum ⟨0x10000001, 0⟩ ≠ 0 := by decide +kernel

/-- The clause that INIT alone clears the sticky bits: an INIT that does. -/
theorem witness_InitStartsFreshStream_clears :
    let s := withCore { finalCore with err := true, ecode := 4 } []
    ∃ t, exec .init s = .next t ∧ s.core.err = true ∧ t.core.err = false := ⟨_, rfl, rfl, rfl⟩

/-- The lengths at which the clauses of APPEND meet: 63 + 0, 56 + 8, 57 + 8 and 63 + 8; both phases; a bad count; equal
lanes; the last counter value. -/
theorem witness_AppendAddsLanes :
    let b (n : Nat) : CoreState := activeCore (List.replicate n 1) 0
    ((b 63).fin = false ∧ (b 63).buf.length < 64 ∧ (b 63).buf.length + (0 : BitVec 4).toNat < 64) ∧
    ((b 56).fin = false ∧ (b 56).buf.length + (8 : BitVec 4).toNat = 64 ∧ (8 : BitVec 4).toNat ≤ 8) ∧
    ((b 57).fin = false ∧ 64 < (b 57).buf.length + (8 : BitVec 4).toNat) ∧
    ((b 63).buf.length < 64 ∧ 64 < (b 63).buf.length + (8 : BitVec 4).toNat) ∧
    (finalCore.fin = true ∧ (0 : BitVec 4).toNat ≤ 8) ∧
    (opNum ⟨0x29000000, 0⟩ = 2 ∧ 8 < cntNum ⟨0x29000000, 0⟩) ∧
    (opNum ⟨0x20000001, 0⟩ = 2 ∧ rsvNum ⟨0x20000001, 0⟩ ≠ 0) ∧
    (0xFFFFFFFFFF636261 : Dword).toNat % 2 ^ (8 * (3 : BitVec 4).toNat) =
      (0x636261 : Dword).toNat % 2 ^ (8 * (3 : BitVec 4).toNat) ∧
    (activeCore [] 0xFFFFFFFFFFFFFFFF).len = BitVec.ofNat 64 (2 ^ 64 - 1) := by decide +kernel

theorem witness_StatusReadsRegister :
    opNum ⟨0x01000000, 0⟩ = 0 ∧ cntNum ⟨0x01000000, 0⟩ ≠ 0 ∧
    opNum ⟨0x00000001, 0⟩ = 0 ∧ rsvNum ⟨0x00000001, 0⟩ ≠ 0 := by decide +kernel

theorem witness_FinalizeReturnsDigest :
    (activeCore [0x61] 1).fin = false ∧ finalCore.fin = true ∧
    opNum ⟨0x31000000, 0⟩ = 3 ∧ cntNum ⟨0x31000000, 0⟩ ≠ 0 ∧
    opNum ⟨0x30800000, 0⟩ = 3 ∧ rsvNum ⟨0x30800000, 0⟩ ≠ 0 ∧
    (List.replicate 55 (1 : Byte)).length = 55 ∧ 56 ≤ (List.replicate 56 (1 : Byte)).length ∧
    (List.replicate 63 (1 : Byte)).length ≤ 63 := by decide +kernel

theorem witness_ReadDigestReturnsDigest :
    finalCore.fin = true ∧ (activeCore [0x61] 1).fin = false ∧
    opNum ⟨0x4F000000, 0⟩ = 4 ∧ cntNum ⟨0x4F000000, 0⟩ ≠ 0 ∧
    opNum ⟨0x40000001, 0⟩ = 4 ∧ rsvNum ⟨0x40000001, 0⟩ ≠ 0 := by decide +kernel

/-- Each clause of the frame has a command that changes the element, and one that changes none of the core. -/
theorem witness_EachElementHasItsWriters :
    (∃ t, exec (.append 1 0x61) State.reset = .next t ∧ t.core.buf ≠ State.reset.core.buf ∧
      t.core.len ≠ State.reset.core.len) ∧
    (∃ t, exec .init (withCore finalCore []) = .next t ∧ t.core.st ≠ finalCore.st ∧ t.core.fin ≠ finalCore.fin) ∧
    (∃ t, exec .rddig State.reset = .next t ∧ t.core.err ≠ State.reset.core.err) ∧
    (∃ t, exec .status State.reset = .next t) :=
  ⟨⟨_, rfl, by decide +kernel, by decide +kernel⟩, ⟨_, rfl, by decide +kernel, by decide +kernel⟩,
   ⟨_, rfl, by decide +kernel⟩, ⟨_, rfl⟩⟩

theorem witness_LengthCounterCounts :
    (8 : BitVec 4).toNat ≤ 8 ∧ (activeCore [] 0xFFFFFFFFFFFFFFFF).fin = false ∧ finalCore.fin = true ∧
    8 < (9 : BitVec 4).toNat := by decide +kernel

/-- An error is recorded and a later rejection follows. -/
theorem witness_FirstErrorStays :
    let s := withCore { finalCore with err := true, ecode := 5 } [.command ⟨0x30000000, 0⟩]
    s.core.err = true ∧ s.core.ecode ≠ 0 ∧ (∃ t, step s = .next t) ∧ (∀ rest, s.host ≠ .reset :: rest) ∧
    (∀ c rest, s.host ≠ .commandReset c :: rest) ∧
    ∀ c rest, s.host = .command c :: rest → decode c ≠ .instr .init := by
  refine ⟨rfl, by decide +kernel, ⟨_, rfl⟩, ?_, ?_, ?_⟩
  · intro rest h; cases h
  · intro c rest h; cases h
  · intro c rest h; cases h; decide

theorem witness_CleanRunRejectedNothing :
    let s := hosted [.command ⟨0x21000000, 0x61⟩]
    ∃ t, runFor 1 s = .next t ∧
      (∀ x ∈ s.host.take 1, ∃ c, x = .command c ∧ decode c ≠ .instr .init) ∧ t.clean := by
  refine ⟨_, rfl, ?_, rfl⟩
  intro x hx
  exact ⟨⟨0x21000000, 0x61⟩, by simpa [hosted] using hx, by decide⟩

theorem witness_ErrorBitsDoNotBlock :
    (hosted [.command ⟨0x21000000, 0x61⟩]).host = .command ⟨0x21000000, 0x61⟩ :: [] ∧
    decode ⟨0x21000000, 0x61⟩ ≠ .instr .status := by decide +kernel

theorem witness_DigestImmutable :
    finalCore.fin = true ∧ (withCore finalCore [.command ⟨0x21000000, 1⟩]).host = .command ⟨0x21000000, 1⟩ :: [] ∧
    decode ⟨0x21000000, 1⟩ ≠ .instr .init := by decide +kernel

theorem witness_ActiveStateHidden :
    (activeCore [1] 1).fin = false ∧
    (withCore (activeCore [1] 1) [.command ⟨0x00000000, 1⟩]).host = .command ⟨0x00000000, 1⟩ :: [] ∧
    decode ⟨0x00000000, 1⟩ ≠ .instr .finalize := by decide +kernel

theorem witness_FinalizedTailUnobservable :
    finalCore.fin = true ∧ (withCore finalCore [.command ⟨0x10000000, 1⟩]).host = .command ⟨0x10000000, 1⟩ :: [] ∧
    decode ⟨0x10000000, 1⟩ = .instr .init := by decide +kernel

/-- Two data words that agree on lanes 0 to 2 only, under a count of 3; and a command that is no APPEND. -/
theorem witness_DataWordReadOnlyByAppend :
    opNum ⟨0x40000000, 7⟩ ≠ 2 ∧ opNum ⟨0x23000000, 0x636261⟩ = 2 ∧
    ∀ j, j < 3 → (0xFFFFFFFFFF636261 : Dword).extractLsb' (8 * j) 8 = (0x636261 : Dword).extractLsb' (8 * j) 8 := by
  decide +kernel

/-- A step of each opcode class and its response. -/
theorem witness_ResponseCodesOfEachCommand :
    (∃ t, step (hosted [.command ⟨0x40000000, 0⟩]) = .next t ∧ t.rsp = [] ++ [⟨5, 0⟩]) ∧
    opNum ⟨0x00000000, 0⟩ = 0 ∧ opNum ⟨0x10000000, 0⟩ = 1 ∧ opNum ⟨0x20000000, 0⟩ = 2 ∧ opNum ⟨0x30000000, 0⟩ = 3 ∧
    opNum ⟨0x40000000, 0⟩ = 4 ∧ 5 ≤ opNum ⟨0x50000000, 0⟩ ∧ 5 ≤ opNum ⟨0xFFFFFFFF, 0⟩ :=
  ⟨⟨_, rfl, by decide +kernel⟩, by decide +kernel⟩

theorem witness_RepeatedCommands :
    finalCore.fin = true ∧ (activeCore (List.replicate 63 1) 63).fin = false ∧
    (activeCore (List.replicate 63 1) 63).buf.length < 64 ∧ 0 < (1 : BitVec 4).toNat ∧ (8 : BitVec 4).toNat ≤ 8 := by
  decide +kernel

theorem witness_AbsorbFollowsLoop :
    (List.replicate 63 (1 : Byte) ++ []).length < 64 ∧ 64 ≤ (List.replicate 63 (1 : Byte) ++ [1]).length ∧
    (List.replicate 63 (1 : Byte)).length ≤ 63 ∧ (List.replicate 8 (1 : Byte)).length ≤ 8 := by decide +kernel

theorem witness_ChunkingNeverChangesTheResult : (activeCore (List.replicate 63 1) 63).buf.length < 64 := by
  decide +kernel

theorem witness_PadFillsToLengthField : ((List.replicate 56 (1 : Byte)).length + 1 + 63) % 64 = 56 := by decide +kernel

theorem witness_FinalBlocksOfTail :
    (List.replicate 55 (1 : Byte)).length ≤ 55 ∧ 56 ≤ (List.replicate 56 (1 : Byte)).length ∧
    (List.replicate 63 (1 : Byte)).length ≤ 63 := by decide +kernel

theorem witness_LanesInOrder :
    (8 : BitVec 4).toNat ≤ 8 ∧ (activeCore [] 0).fin = false ∧
    (0xFF61 : Dword).toNat % 2 ^ (8 * 1) = (0x61 : Dword).toNat % 2 ^ (8 * 1) := by decide +kernel

theorem witness_HostWordOrder : ([1, 2, 3, 4, 5, 6, 7, 8] : List Byte).length = 8 := by decide

theorem witness_MessageWordsLittleEndian : (zeros 64).length = 64 := by decide +kernel

theorem witness_RotationMovesBits : 1 ≤ 1 ∧ 31 ≤ 31 ∧ 31 < 32 ∧ 63 < 64 := by decide

/-- A state of the invariant with a byte buffered and an error recorded, and its step. -/
theorem witness_StepKeepsInvariant :
    let s := withCore { activeCore [0x61] 1 with err := true, ecode := 5 } [.command ⟨0x21000000, 0x62⟩]
    s.Inv ∧ ∃ t, step s = .next t :=
  ⟨⟨by decide +kernel, by decide +kernel, by constructor <;> decide +kernel⟩, ⟨_, rfl⟩⟩

/-- A stream of one byte, and the step of the APPEND of another. -/
theorem witness_StepFollowsStream :
    let s := withCore (activeCore [0x61] 1) [.command ⟨0x21000000, 0x62⟩]
    Represents ⟨[0x61], false⟩ s.core ∧ s.host = .command ⟨0x21000000, 0x62⟩ :: [] ∧ ∃ t, step s = .next t :=
  ⟨⟨rfl, rfl, fun _ => rfl, fun _ => rfl, fun h => Bool.noConfusion h, fun h => Bool.noConfusion h⟩, rfl, ⟨_, rfl⟩⟩

/-- The two phases of the statement: an ACTIVE stream of one byte, and the finalized empty stream. -/
theorem witness_DigestIsMd5OfStream :
    Represents ⟨[0x61], false⟩ (activeCore [0x61] 1) ∧ Represents ⟨[], true⟩ finalCore :=
  ⟨⟨rfl, rfl, fun _ => rfl, fun _ => rfl, fun h => Bool.noConfusion h, fun h => Bool.noConfusion h⟩,
   ⟨rfl, rfl, fun h => Bool.noConfusion h, fun h => Bool.noConfusion h, fun _ => by decide +kernel, fun _ => rfl⟩⟩

theorem witness_FeedAppendsWholeSequence :
    let s := withCore (activeCore [1] 1) ((feed [0x61]).map .command ++ [.reset])
    s.core.fin = false ∧ s.host = (feed [0x61]).map .command ++ [.reset] := by decide +kernel

theorem witness_OneShotDigest :
    (withCore finalCore ((digestScript [0x61]).map .command)).host = (digestScript [0x61]).map .command ++ [] := by
  decide +kernel

/-- Two instances that both step. -/
theorem witness_InstancesIndependent :
    let ss := [hosted [.command ⟨0x21000000, 0x61⟩], hosted [.command ⟨0x22000000, 0x6261⟩]]
    ∃ ts us, stepInstance 0 ss = .next ts ∧ stepInstance 1 ts = .next us ∧ (0 : Nat) ≠ 1 :=
  ⟨_, _, rfl, rfl, by decide⟩

end Sys2Proof.Tests
end

section
/-!
PROOF. The state after reset and after an OK INIT (spec rule R33).
-/

namespace Sys2Proof.Machine

/-- `STATUS[7:5]` reads 0 in every core state (R27). -/
@[simp] theorem statusReg_reserved (c : CoreState) : (statusReg c).extractLsb' 5 3 = 0 := by
  ext i hi
  have past_fin : ¬ 5 + i < 1 := by omega
  have past_err : ¬ 5 + i - 1 < 1 := by omega
  have past_ecode : ¬ 5 + i - 1 - 1 < 3 := by omega
  rw [BitVec.getElem_extractLsb', statusReg, BitVec.getLsbD_append, if_neg past_fin, BitVec.getLsbD_append,
    if_neg past_err, BitVec.getLsbD_append, if_neg past_ecode]
  simp

/-- What INIT writes is the reset value of every element of the core (R33, R113). -/
theorem initCore_eq_reset : initCore = CoreState.reset := rfl

/-- INIT answers OK in every state (R113). -/
theorem exec_init (s : State) : exec .init s = .next (respond .ok 0 { s with core := initCore }) := rfl

/-- Settles O1: the reset value of each element, and INIT, whose whole effect on the core is to write these values. -/
theorem resetLeavesFreshStream : Obligations.ResetLeavesFreshStream := by
  refine ⟨reset_st, reset_buf, reset_len, reset_fin, reset_err, reset_ecode, statusReg_reserved _, fun s => ?_⟩
  exact ⟨_, exec_init s, initCore_eq_reset⟩

end Sys2Proof.Machine
end

section
/-!
PROOF. The byte lanes of an APPEND (spec rule R42): which byte a lane carries, in which order an APPEND takes them, and
that the lanes beyond its count are never read.
-/

namespace Sys2Proof.Machine

/-- Lane `j`, `DIN[8j+7:8j]`, as a number. -/
theorem lane_eq_ofNat (din : Dword) (j : Nat) :
    din.extractLsb' (8 * j) 8 = BitVec.ofNat 8 (din.toNat / 2 ^ (8 * j)) := by
  rw [BitVec.extractLsb', Nat.shiftRight_eq_div_pow]

/-- Byte `j` of the bytes an APPEND takes is lane `j`. -/
theorem lanes_getElem? {n j : Nat} (din : Dword) (h : j < n) :
    (lanes din n)[j]? = some (din.extractLsb' (8 * j) 8) := by
  simp [lanes, h]

/-- Only the bits of the lanes taken matter: two data words with equal lanes 0 to `n - 1` give the same bytes. -/
theorem lanes_congr {din din' : Dword} {n : Nat}
    (h : ∀ j, j < n → din'.extractLsb' (8 * j) 8 = din.extractLsb' (8 * j) 8) : lanes din' n = lanes din n :=
  List.map_congr_left fun j hj => h j (List.mem_range.mp hj)

/-- A bit below `m` is read off the word modulo `2 ^ m`. -/
theorem getLsbD_eq_of_mod_eq {din din' : Dword} {m k : Nat} (h : din'.toNat % 2 ^ m = din.toNat % 2 ^ m) (hk : k < m) :
    din'.getLsbD k = din.getLsbD k := by
  have hbit := congrArg (Nat.testBit · k) h
  simpa [BitVec.testBit_toNat, Nat.testBit_mod_two_pow, hk] using hbit

/-- Lane `j` ends at bit `8j + 7`, below bit `8n` when `j < n`. -/
theorem lane_eq_of_mod_eq {din din' : Dword} {n j : Nat}
    (h : din'.toNat % 2 ^ (8 * n) = din.toNat % 2 ^ (8 * n)) (hj : j < n) :
    din'.extractLsb' (8 * j) 8 = din.extractLsb' (8 * j) 8 := by
  ext i hi
  have below : 8 * j + i < 8 * n := by omega
  rw [BitVec.getElem_extractLsb', BitVec.getElem_extractLsb', getLsbD_eq_of_mod_eq h below]

/-- An APPEND in the ACTIVE phase performs `appendCore` on its lanes and answers OK (R114). -/
theorem exec_append_active (n : BitVec 4) (din : Dword) (s : State) (hn : n.toNat ≤ 8) (hf : s.core.fin = false) :
    exec (.append n din) s = .next (respond .ok 0 { s with core := appendCore (lanes din n.toNat) s.core }) :=
  execAppend_active n din s hn hf

/-- Settles O34: an APPEND is performed on its lanes, lane `j` is byte `j`, and a lane below `n` has no bit at `8n` or
above. -/
theorem lanesInOrder : Obligations.LanesInOrder := by
  refine ⟨fun n din s hn hf => ⟨_, exec_append_active n din s hn hf, rfl⟩, fun din n _ => ⟨lanes_length din n, ?_, ?_⟩⟩
  · intro j hj
    rw [lanes_getElem? din hj, lane_eq_ofNat]
  · intro din' h
    exact lanes_congr fun j hj => lane_eq_of_mod_eq h hj

end Sys2Proof.Machine
end

section
/-!
PROOF. The decoder's priority order (spec rule R68), clause by clause, and which command words are legal.
-/

namespace Sys2Proof.Machine

section Priority
variable {c : Command}

/-- An opcode of 5 or more is `E_OPCODE`, before any other field is looked at. -/
theorem decode_of_five_le_op (ho : 5 ≤ opNum c) : decode c = .reject .eOpcode := by
  rw [decode_num, if_pos ho]

/-- Under a known opcode, a nonzero `RSV` is `E_FIELD`, before `CNT` is looked at. -/
theorem decode_of_rsv_ne_zero (ho : opNum c < 5) (hr : rsvNum c ≠ 0) : decode c = .reject .eField := by
  rw [decode_num, if_neg (Nat.not_le.mpr ho), if_pos hr]

/-- With a known opcode and `RSV = 0`, only the two tests on `CNT` remain before the command. -/
theorem decode_of_rsv_eq_zero (ho : opNum c < 5) (hr : rsvNum c = 0) : decode c =
    if opNum c = 2 ∧ 8 < cntNum c then .reject .eField
    else if opNum c ≠ 2 ∧ cntNum c ≠ 0 then .reject .eField
    else if opNum c = 0 then .instr .status
    else if opNum c = 1 then .instr .init
    else if opNum c = 2 then .instr (.append (BitVec.ofNat 4 (cntNum c)) c.din)
    else if opNum c = 3 then .instr .finalize
    else .instr .rddig := by
  rw [decode_num, if_neg (Nat.not_le.mpr ho), if_neg (not_not.mpr hr)]

/-- An APPEND with a count above 8 is `E_FIELD` (R63). -/
theorem decode_append_of_count_gt (ho : opNum c = 2) (hr : rsvNum c = 0) (hc : 8 < cntNum c) :
    decode c = .reject .eField := by
  rw [decode_of_rsv_eq_zero (by omega) hr, if_pos ⟨ho, hc⟩]

/-- Another operation with a nonzero `CNT` is `E_FIELD` (R63). -/
theorem decode_of_count_ne_zero (ho : opNum c < 5) (ho2 : opNum c ≠ 2) (hr : rsvNum c = 0) (hc : cntNum c ≠ 0) :
    decode c = .reject .eField := by
  rw [decode_of_rsv_eq_zero ho hr, if_neg fun h => ho2 h.1, if_pos ⟨ho2, hc⟩]

/-- An APPEND with a count of at most 8 carries its count and its data word. -/
theorem decode_append (ho : opNum c = 2) (hr : rsvNum c = 0) (hc : cntNum c ≤ 8) :
    decode c = .instr (.append (BitVec.ofNat 4 (cntNum c)) c.din) := by
  have count_ok : ¬ 8 < cntNum c := Nat.not_lt.mpr hc
  simp [decode_of_rsv_eq_zero (c := c) (by omega) hr, ho, count_ok]

/-- With `CNT` and `RSV` zero, the commands other than APPEND are told by the opcode alone. -/
theorem decode_of_fields_zero (ho : opNum c < 5) (ho2 : opNum c ≠ 2) (hr : rsvNum c = 0) (hc : cntNum c = 0) :
    decode c =
      if opNum c = 0 then .instr .status
      else if opNum c = 1 then .instr .init
      else if opNum c = 3 then .instr .finalize
      else .instr .rddig := by
  rw [decode_of_rsv_eq_zero ho hr, if_neg fun h => ho2 h.1, if_neg fun h => h.2 hc, if_neg ho2]

theorem decode_status (ho : opNum c = 0) (hr : rsvNum c = 0) (hc : cntNum c = 0) : decode c = .instr .status := by
  simp [decode_of_fields_zero (c := c) (by omega) (by omega) hr hc, ho]

theorem decode_init (ho : opNum c = 1) (hr : rsvNum c = 0) (hc : cntNum c = 0) : decode c = .instr .init := by
  simp [decode_of_fields_zero (c := c) (by omega) (by omega) hr hc, ho]

theorem decode_finalize (ho : opNum c = 3) (hr : rsvNum c = 0) (hc : cntNum c = 0) :
    decode c = .instr .finalize := by
  simp [decode_of_fields_zero (c := c) (by omega) (by omega) hr hc, ho]

theorem decode_rddig (ho : opNum c = 4) (hr : rsvNum c = 0) (hc : cntNum c = 0) : decode c = .instr .rddig := by
  simp [decode_of_fields_zero (c := c) (by omega) (by omega) hr hc, ho]

end Priority

/-- The fields of a legal command word: `RSV` is 0, and the opcode is 2 with a count of at most 8, or another one
below 5 with count 0. -/
def LegalFields (c : Command) : Prop :=
  rsvNum c = 0 ∧ (opNum c = 2 ∧ cntNum c ≤ 8 ∨ opNum c < 5 ∧ opNum c ≠ 2 ∧ cntNum c = 0)

/-- The decoder accepts exactly the words with legal fields. -/
theorem decodes_iff_legalFields (c : Command) : (∃ i, decode c = .instr i) ↔ LegalFields c := by
  constructor
  · rintro ⟨i, hi⟩
    have not_rejected : ∀ e, decode c ≠ .reject e := fun e he => by simp [hi] at he
    have ho : opNum c < 5 := Nat.lt_of_not_le fun h => not_rejected _ (decode_of_five_le_op h)
    have hr : rsvNum c = 0 := not_not.mp fun h => not_rejected _ (decode_of_rsv_ne_zero ho h)
    by_cases ho2 : opNum c = 2
    · exact ⟨hr, .inl ⟨ho2, Nat.le_of_not_lt fun h => not_rejected _ (decode_append_of_count_gt ho2 hr h)⟩⟩
    · exact ⟨hr, .inr ⟨ho, ho2, not_not.mp fun h => not_rejected _ (decode_of_count_ne_zero ho ho2 hr h)⟩⟩
  · rintro ⟨hr, ⟨ho, hc⟩ | ⟨ho, ho2, hc⟩⟩
    · exact ⟨_, decode_append ho hr hc⟩
    · obtain h | h | h | h : opNum c = 0 ∨ opNum c = 1 ∨ opNum c = 3 ∨ opNum c = 4 := by omega
      · exact ⟨_, decode_status h hr hc⟩
      · exact ⟨_, decode_init h hr hc⟩
      · exact ⟨_, decode_finalize h hr hc⟩
      · exact ⟨_, decode_rddig h hr hc⟩

/-- The words with legal fields as numbers: STATUS and INIT, then APPEND with its nine counts, FINALIZE and
READ_DIGEST. -/
theorem legalFields_iff_toNat (c : Command) : LegalFields c ↔
    c.cmd.toNat = 0 ∨ c.cmd.toNat = 2 ^ 28 ∨ (∃ n ≤ 8, c.cmd.toNat = 2 * 2 ^ 28 + n * 2 ^ 24) ∨
    c.cmd.toNat = 3 * 2 ^ 28 ∨ c.cmd.toNat = 4 * 2 ^ 28 := by
  constructor
  · rintro ⟨hr, ⟨ho, hc⟩ | ⟨ho, ho2, hc⟩⟩
    · exact .inr (.inr (.inl ⟨cntNum c, hc, by rw [cmd_toNat, ho, hr, Nat.add_zero]⟩))
    · have word := cmd_toNat c
      omega
  · unfold LegalFields opNum cntNum rsvNum
    rintro (h | h | ⟨n, hn, h⟩ | h | h) <;> omega

/-- The nine words of APPEND, counts 0 to 8. -/
theorem exists_appendWord_iff (w : Nat) : (∃ n ≤ 8, w = 2 * 2 ^ 28 + n * 2 ^ 24) ↔
    w ∈ [0x20000000, 0x21000000, 0x22000000, 0x23000000, 0x24000000, 0x25000000, 0x26000000, 0x27000000,
      0x28000000] := by
  constructor
  · rintro ⟨n, hn, rfl⟩
    interval_cases n <;> decide
  · intro h
    simp only [List.mem_cons, List.not_mem_nil, or_false] at h
    exact ⟨w / 2 ^ 24 % 16, by omega, by omega⟩

/-- The 13 command words the decoder accepts, whatever the data word. -/
theorem decodes_iff_mem_legalWords (w : Word) (din : Dword) : (∃ i, decode ⟨w, din⟩ = .instr i) ↔
    w ∈ ([0x00000000, 0x10000000, 0x20000000, 0x21000000, 0x22000000, 0x23000000, 0x24000000, 0x25000000,
      0x26000000, 0x27000000, 0x28000000, 0x30000000, 0x40000000] : List Word) := by
  rw [decodes_iff_legalFields, legalFields_iff_toNat, exists_appendWord_iff]
  simp [← BitVec.toNat_inj, or_assoc]

/-- A rejected command is answered with its code and data 0 in every state, whatever the phase (R68, R174). -/
theorem step_of_decode_reject {s : State} {c : Command} {rest : List HostInput} {e : Code}
    (hs : s.host = .command c :: rest) (he : decode c = .reject e) :
    step s = .next (reject e (issue rest s)) := by
  rw [step_command s c rest hs, serve_reject c e _ he]

/-- Settles O5: the clauses in the decoder's order, the answer to a rejected word, and the 13 legal words. -/
theorem decodeFollowsPriority : Obligations.DecodeFollowsPriority := by
  refine ⟨fun c => ⟨decode_of_five_le_op, decode_of_rsv_ne_zero, decode_append_of_count_gt, decode_of_count_ne_zero,
    decode_status, decode_init, decode_append, decode_finalize, decode_rddig⟩, ?_, decodes_iff_mem_legalWords⟩
  intro s c rest e hs he
  exact ⟨_, step_of_decode_reject hs he, rfl⟩

end Sys2Proof.Machine
end

section
/-!
PROOF. What a command reads of its data word `DIN` (spec rule R65): nothing, but for the lanes of an APPEND.
-/

namespace Sys2Proof.Machine

/-- A step on an offered command serves it; the inputs that stood at the port before do not matter. -/
theorem step_offered (s : State) (c : Command) (rest : List HostInput) :
    step { s with host := .command c :: rest } = serve c (issue rest s) :=
  step_command _ c rest rfl

/-- The decoder hands the data word to APPEND only. -/
theorem decode_ignores_din {c : Command} (din : Dword) (ho : opNum c ≠ 2) : decode ⟨c.cmd, din⟩ = decode c := by
  have op_not_append : opNum ⟨c.cmd, din⟩ ≠ 2 := ho
  rw [decode_num, decode_num, if_neg op_not_append, if_neg ho]
  rfl

/-- An APPEND reads its data word through its lanes only. -/
theorem exec_append_congr {n : BitVec 4} {din din' : Dword} (s : State)
    (h : lanes din' n.toNat = lanes din n.toNat) : exec (.append n din') s = exec (.append n din) s := by
  change execAppend n din' s = execAppend n din s
  rw [execAppend, execAppend, h]

/-- An APPEND word, legal or not, is served alike with two data words that agree on the lanes it counts. -/
theorem serve_append_congr {c : Command} {din : Dword} (s : State) (ho : opNum c = 2)
    (h : ∀ j, j < cntNum c → j < 8 → din.extractLsb' (8 * j) 8 = c.din.extractLsb' (8 * j) 8) :
    serve ⟨c.cmd, din⟩ s = serve c s := by
  have op_known : opNum c < 5 := by omega
  by_cases hr : rsvNum c = 0
  · by_cases hc : cntNum c ≤ 8
    · have count : (BitVec.ofNat 4 (cntNum c)).toNat = cntNum c := Nat.mod_eq_of_lt (cntNum_lt c)
      have same_lanes : lanes din (BitVec.ofNat 4 (cntNum c)).toNat =
          lanes c.din (BitVec.ofNat 4 (cntNum c)).toNat := by
        rw [count]
        exact lanes_congr fun j hj => h j hj (by omega)
      rw [serve_instr c _ s (decode_append ho hr hc), serve_instr ⟨c.cmd, din⟩ _ s (decode_append ho hr hc)]
      exact exec_append_congr s same_lanes
    · have hc' := Nat.lt_of_not_le hc
      rw [serve_reject c _ s (decode_append_of_count_gt ho hr hc'),
        serve_reject ⟨c.cmd, din⟩ _ s (decode_append_of_count_gt ho hr hc')]
  · rw [serve_reject c _ s (decode_of_rsv_ne_zero op_known hr),
      serve_reject ⟨c.cmd, din⟩ _ s (decode_of_rsv_ne_zero op_known hr)]

/-- Settles O27: the decoder drops the data word of every command but APPEND, and an APPEND reads its lanes only. -/
theorem dataWordReadOnlyByAppend : Obligations.DataWordReadOnlyByAppend := by
  constructor
  · intro s c rest ho
    rw [step_offered, step_offered, serve, serve, decode_ignores_din 0 ho]
  · intro s c din rest ho h
    rw [step_offered, step_offered, serve_append_congr _ ho h]

end Sys2Proof.Machine
end

section
/-!
PROOF. The message words of a block (spec rule R81): how many there are, and which bytes each one is read from.
-/

namespace Sys2Proof.Machine

/-- One message word from every four bytes, whatever the number of bytes. -/
theorem blockWords_length : ∀ blk : List Byte, (blockWords blk).length = blk.length / 4
  | [] | [_] | [_, _] | [_, _, _] => by simp [blockWords]
  | _ :: _ :: _ :: _ :: rest => by
    have ih := blockWords_length rest
    simp only [blockWords, List.length_cons]
    omega

/-- Message word `j` is read from bytes `4j` to `4j + 3`, when the last of them is there. -/
theorem blockWords_getElem? {blk : List Byte} {j : Nat} (h : 4 * j + 3 < blk.length) :
    (blockWords blk)[j]? =
      some (le32 (blk.getD (4 * j) 0) (blk.getD (4 * j + 1) 0) (blk.getD (4 * j + 2) 0) (blk.getD (4 * j + 3) 0)) := by
  induction j generalizing blk with
  | zero =>
    match blk, h with
    | _ :: _ :: _ :: _ :: _, _ => rfl
  | succ j ih =>
    match blk, h with
    | _ :: _ :: _ :: _ :: rest, h =>
      have rest_long : 4 * j + 3 < rest.length := by
        simp only [List.length_cons] at h
        omega
      exact ih rest_long

/-- Settles O38: the example word, and the two facts above about a byte list of any length, at 64 bytes. -/
theorem messageWordsLittleEndian : Obligations.MessageWordsLittleEndian := by
  refine ⟨by decide, fun blk h64 => ⟨?_, fun j hj => ?_⟩⟩
  · rw [blockWords_length, h64]
  · have bytes_present : 4 * j + 3 < blk.length := by omega
    exact blockWords_getElem? bytes_present

end Sys2Proof.Machine
end

section
/-!
PROOF. The loop of `absorb` (spec rule R110): one turn of it, and that an APPEND, of at most 8 bytes, takes at most one.
-/

namespace Sys2Proof.Machine

/-- One turn of the loop: the first 64 bytes gathered are compressed, and the loop goes on with the rest. -/
theorem absorb_of_ge (st : Chain) (buf s : List Byte) (h : 64 ≤ (buf ++ s).length) :
    absorb st buf s = absorb (compress st ((buf ++ s).take 64)) ((buf ++ s).drop 64) [] := by
  obtain ⟨k, hk⟩ : ∃ k, (buf ++ s).length / 64 = k + 1 := ⟨(buf ++ s).length / 64 - 1, by omega⟩
  have turns_left : ((buf ++ s).drop 64).length / 64 = k := by rw [List.length_drop]; omega
  rw [absorb, hk, absorbBlocks_of_ge k st _ h, absorb, List.append_nil, turns_left]

/-- Between 64 and 127 bytes gathered the loop turns exactly once. -/
theorem absorb_one_block (st : Chain) (buf s : List Byte) (h : 64 ≤ (buf ++ s).length)
    (h' : (buf ++ s).length < 128) :
    absorb st buf s = (compress st ((buf ++ s).take 64), (buf ++ s).drop 64) := by
  have rest_short : ((buf ++ s).drop 64 ++ []).length < 64 := by
    rw [List.append_nil, List.length_drop]; omega
  rw [absorb_of_ge st buf s h, absorb_of_lt _ _ _ rest_short, List.append_nil]

/-- Exactly 64 bytes gathered: they are one block, and nothing is left. -/
theorem absorb_exact_block (st : Chain) (buf s : List Byte) (h : (buf ++ s).length = 64) :
    absorb st buf s = (compress st (buf ++ s), []) := by
  rw [absorb_one_block st buf s (by omega) (by omega), List.take_of_length_le (by omega),
    List.drop_of_length_le (by omega)]

/-- Settles O30: no turn below 64 bytes, one turn from 64 on, and a tail of 63 bytes with 8 more is short of two
blocks. -/
theorem absorbFollowsLoop : Obligations.AbsorbFollowsLoop := by
  refine ⟨absorb_of_lt, absorb_of_ge, fun st buf s => Nat.le_of_lt_succ (absorb_rest_length st buf s), ?_⟩
  intro st buf s hbuf hs
  have short_of_two_blocks : (buf ++ s).length < 128 := by rw [List.length_append]; omega
  rcases Nat.lt_or_ge (buf ++ s).length 64 with h | h
  · exact .inl (by rw [absorb_of_lt st buf s h])
  · exact .inr (by rw [absorb_one_block st buf s h short_of_two_blocks])

end Sys2Proof.Machine
end

section
/-!
PROOF. The field errors of a command under a known opcode (spec rules R63, R64, R68), and their answer.
-/

namespace Sys2Proof.Machine

/-- A known opcode other than APPEND wants `CNT` and `RSV` both 0. -/
theorem decode_field_error {c : Command} (ho : opNum c < 5) (ho2 : opNum c ≠ 2) (h : cntNum c ≠ 0 ∨ rsvNum c ≠ 0) :
    decode c = .reject .eField := by
  by_cases hr : rsvNum c = 0
  · exact decode_of_count_ne_zero ho ho2 hr (h.resolve_right (not_not.mpr hr))
  · exact decode_of_rsv_ne_zero ho hr

/-- APPEND wants `CNT` at most 8 and `RSV` 0. -/
theorem decode_append_field_error {c : Command} (ho : opNum c = 2) (h : 8 < cntNum c ∨ rsvNum c ≠ 0) :
    decode c = .reject .eField := by
  by_cases hr : rsvNum c = 0
  · exact decode_append_of_count_gt ho hr (h.resolve_right (not_not.mpr hr))
  · exact decode_of_rsv_ne_zero (by omega) hr

/-- A field error is answered, in every state, with code 2 and the effect of a rejection only. -/
theorem step_of_field_error {s : State} {c : Command} {rest : List HostInput} (hs : s.host = .command c :: rest)
    (h : decode c = .reject .eField) : ∃ t, step s = .next t ∧ Rejected 2 (issue rest s) t :=
  ⟨_, step_of_decode_reject hs h, rejected_reject .eField _⟩

end Sys2Proof.Machine
end

section
/-!
PROOF. STATUS (spec rule R115) and the bits of the register it reads (R27).
-/

namespace Sys2Proof.Machine

/-- `STATUS[0]` is `FIN`. -/
@[simp] theorem statusReg_bit_zero (c : CoreState) : (statusReg c).getLsbD 0 = c.fin := by
  rw [statusReg, BitVec.getLsbD_append]
  simp

/-- `STATUS[1]` is `ERR`. -/
@[simp] theorem statusReg_bit_one (c : CoreState) : (statusReg c).getLsbD 1 = c.err := by
  rw [statusReg, BitVec.getLsbD_append, if_neg (by decide), BitVec.getLsbD_append]
  simp

/-- `STATUS[4:2]` is `ECODE`. -/
@[simp] theorem statusReg_ecode (c : CoreState) : (statusReg c).extractLsb' 2 3 = c.ecode := by
  ext i hi
  have past_fin : ¬ 2 + i < 1 := by omega
  have past_err : ¬ 2 + i - 1 < 1 := by omega
  have in_ecode : 2 + i - 1 - 1 < 3 := by omega
  have index : 2 + i - 1 - 1 = i := by omega
  rw [BitVec.getElem_extractLsb', statusReg, BitVec.getLsbD_append, if_neg past_fin, BitVec.getLsbD_append,
    if_neg past_err, BitVec.getLsbD_append, if_pos in_ecode, index, BitVec.getLsbD_eq_getElem hi]

/-- The word of STATUS decodes to it with any data word (R62, R65). -/
theorem decode_statusWord (din : Dword) : decode ⟨0x00000000, din⟩ = .instr .status :=
  (decode_ignores_din (c := ⟨0x00000000, 0⟩) din (by decide)).trans (by decide)

/-- STATUS answers with the register in every state and writes nothing of the core (R115). -/
theorem exec_status (s : State) : exec .status s = .next (respond .ok ((statusReg s.core).setWidth 128) s) := rfl

/-- Settles O16: the register field by field, the field errors, and the two examples. -/
theorem statusReadsRegister : Obligations.StatusReadsRegister := by
  refine ⟨decode_statusWord, fun s => ?_, ?_, rfl, ?_⟩
  · exact ⟨statusReg s.core, exec_status s, statusReg_bit_zero _, statusReg_bit_one _, statusReg_ecode _,
      statusReg_reserved _⟩
  · intro s c rest hs ho h
    exact step_of_field_error hs (decode_field_error (by omega) (by omega) h)
  · refine ⟨_, _, _, execFinalize_active _ rfl, execFinalize_final _ rfl, exec_status _, ?_⟩
    simp [statusReg, Code.bits]

end Sys2Proof.Machine
end

section
/-!
PROOF. INIT (spec rule R113), and that no other command clears a recorded error.
-/

namespace Sys2Proof.Machine

/-- The word of INIT decodes to it with any data word (R62, R65). -/
theorem decode_initWord (din : Dword) : decode ⟨0x10000000, din⟩ = .instr .init :=
  (decode_ignores_din (c := ⟨0x10000000, 0⟩) din (by decide)).trans (by decide)

/-- A recorded error outlives every command but INIT: `ERR` stays set and a nonzero `ECODE` keeps its value (R174). -/
theorem exec_keeps_recorded_error {i : Instr} {s t : State} (h : exec i s = .next t) (hi : i ≠ .init) :
    (s.core.err = true → t.core.err = true) ∧ (s.core.ecode ≠ 0 → t.core.ecode = s.core.ecode) := by
  obtain ⟨e, rfl, -⟩ | ⟨-, rfl⟩ | ⟨rfl, -⟩ | ⟨n, din, -, -, -, rfl⟩ | ⟨-, -, rfl⟩ | ⟨-, -, rfl⟩ := exec_cases h
  · exact ⟨fun _ => rfl, fun hne => if_neg hne⟩
  · exact ⟨id, fun _ => rfl⟩
  · exact absurd rfl hi
  · exact ⟨id, fun _ => rfl⟩
  · exact ⟨id, fun _ => rfl⟩
  · exact ⟨id, fun _ => rfl⟩

/-- Settles O14: INIT writes the fresh stream in every state, and a command that clears a recorded error is INIT. -/
theorem initStartsFreshStream : Obligations.InitStartsFreshStream := by
  refine ⟨decode_initWord, exec_init, ?_, ?_, ?_⟩
  · intro s c rest hs ho h
    exact step_of_field_error hs (decode_field_error (by omega) (by omega) h)
  · intro i s t h cleared
    by_contra hi
    obtain ⟨err_kept, ecode_kept⟩ := exec_keeps_recorded_error h hi
    rcases cleared with ⟨set, clear⟩ | ⟨set, clear⟩
    · simp [err_kept set] at clear
    · exact set (ecode_kept set ▸ clear)
  · intro s t h
    rw [exec_init] at h
    cases h
    exact ⟨_, exec_init _, rfl⟩

end Sys2Proof.Machine
end

section
/-!
PROOF. APPEND (spec rule R114): its words, what it writes, and its corner cases.
-/

namespace Sys2Proof.Machine

/-- The word of APPEND with count `n` as a number. -/
theorem appendWord_toNat (n : BitVec 4) :
    (0x20000000 + BitVec.ofNat 32 n.toNat <<< 24 : Word).toNat = 2 * 2 ^ 28 + n.toNat * 2 ^ 24 := by
  have hn := n.isLt
  simp [Nat.shiftLeft_eq]
  omega

/-- The nine words of APPEND decode to it, with the count and the data word they carry (R62, R63). -/
theorem decode_appendWord (n : BitVec 4) (din : Dword) (hn : n.toNat ≤ 8) :
    decode ⟨0x20000000 + BitVec.ofNat 32 n.toNat <<< 24, din⟩ = .instr (.append n din) := by
  have word := appendWord_toNat n
  have count : cntNum ⟨0x20000000 + BitVec.ofNat 32 n.toNat <<< 24, din⟩ = n.toNat := by
    rw [cntNum, word]; omega
  rw [decode_append (by rw [opNum, word]; omega) (by rw [rsvNum, word]; omega) (by rw [count]; exact hn), count]
  simp

/-- The Length Counter advances modulo 2^64 (R112). -/
theorem countBytes_eq_ofNat (len : Dword) (n : Nat) :
    countBytes len n = BitVec.ofNat 64 ((len.toNat + n) % 2 ^ 64) := by
  apply BitVec.eq_of_toNat_eq
  simp [countBytes]

/-- Appending no bytes to a tail shorter than a block changes nothing. -/
theorem appendCore_nil {c : CoreState} (h : c.buf.length < 64) : appendCore [] c = c := by
  have nothing_absorbed : absorb c.st c.buf [] = (c.st, c.buf) := by
    simpa using absorb_of_lt c.st c.buf [] (by simpa using h)
  simp [appendCore, nothing_absorbed, countBytes]

/-- Settles O15: the words, the effect and errors of APPEND, then its corner cases: no bytes, the three lengths against
64, the lanes not counted, and the wrap of `LEN`. -/
theorem appendAddsLanes : Obligations.AppendAddsLanes := by
  refine ⟨decode_appendWord, ?_, ?_, ?_, ?_, ?_, ?_, ?_, rfl⟩
  · intro n din s hn hf
    rw [exec_append_active n din s hn hf, ← countBytes_eq_ofNat, ← hf]
    simp only [appendCore, lanes_length]
    rfl
  · intro n din s hn hf
    exact ⟨_, execAppend_final n din s hn hf, rejected_reject .eAppendFinal s⟩
  · intro s c rest hs ho h
    exact step_of_field_error hs (decode_append_field_error ho h)
  · intro din s hf hb
    rw [exec_append_active 0 din s (by decide) hf, show (0 : BitVec 4).toNat = 0 from rfl, lanes_zero,
      appendCore_nil hb]
    rfl
  · intro n din s hn hf hb
    have gathered : (s.core.buf ++ lanes din n.toNat).length = s.core.buf.length + n.toNat := by simp
    refine ⟨_, exec_append_active n din s hn hf, fun h => ?_, fun h => ?_, fun h => ?_⟩
    · simp [absorb_of_lt s.core.st _ _ (gathered.trans_lt h)]
    · simp [absorb_exact_block s.core.st _ _ (gathered.trans h)]
    · have absorbed := absorb_one_block s.core.st s.core.buf (lanes din n.toNat) (by omega) (by omega)
      simp only [respond_core, appendCore_st, appendCore_buf, absorbed, List.length_drop, gathered, true_and]
      omega
  · intro n d d' s h
    exact exec_append_congr s (lanes_congr fun j hj => lane_eq_of_mod_eq h hj)
  · intro din s hf hlen
    refine ⟨_, exec_append_active 1 din s (by decide) hf, ?_, rfl⟩
    have wraps : countBytes (BitVec.ofNat 64 (2 ^ 64 - 1)) 1 = 0 := by decide
    simpa [hlen] using wraps

end Sys2Proof.Machine
end

section
/-!
PROOF. FINALIZE (spec rule R133): its padding at the lengths where the corner cases lie (R130), its two errors, and the
two worked examples.
-/

namespace Sys2Proof.Machine

/-- The word of FINALIZE decodes to it with any data word (R62, R65). -/
theorem decode_finalizeWord (din : Dword) : decode ⟨0x30000000, din⟩ = .instr .finalize :=
  (decode_ignores_din (c := ⟨0x30000000, 0⟩) din (by decide)).trans (by decide)

/-- A tail of at most 55 bytes is filled up to byte 55 of its own block. -/
theorem padZeros_of_le {tail : Nat} (h : tail ≤ 55) : padZeros tail = 55 - tail := by
  unfold padZeros; omega

/-- A tail of 56 to 63 bytes is filled up to byte 55 of the block after it. -/
theorem padZeros_of_gt {tail : Nat} (h : 56 ≤ tail) (h' : tail ≤ 63) : padZeros tail = 119 - tail := by
  unfold padZeros; omega

/-- An empty tail takes 55 zero bytes (R133, corner case (b)). -/
theorem pad_nil (len : Dword) : pad [] len = [0x80] ++ zeros 55 ++ bytes64 (bitLen len) := by
  have full_fill : padZeros ([] : List Byte).length = 55 := padZeros_of_le (Nat.zero_le _)
  rw [pad, full_fill, List.nil_append]

/-- A tail of 55 bytes leaves no room for a zero byte (R133, corner case (c)). -/
theorem pad_of_length_55 {buf : List Byte} (len : Dword) (h : buf.length = 55) :
    pad buf len = buf ++ [0x80] ++ bytes64 (bitLen len) := by
  have no_fill : padZeros buf.length = 0 := by rw [padZeros_of_le h.le, h]
  rw [pad, no_fill, zeros, List.replicate_zero, List.append_nil]

/-- A tail of 56 to 63 bytes is padded to two blocks (R133, corner case (d)). -/
theorem pad_length_of_gt {buf : List Byte} (len : Dword) (h : 56 ≤ buf.length) (h' : buf.length ≤ 63) :
    (pad buf len).length = 128 := by
  rw [pad_length, padZeros_of_gt h h']; omega

/-- The length field wraps modulo 2^64 (R133, corner case (e)). -/
theorem bitLen_toNat (len : Dword) : (bitLen len).toNat = 8 * len.toNat % 2 ^ 64 := by
  simp [bitLen]

/-- A FINALIZE in the ACTIVE phase performs `finalizeCore` and answers with the digest of its chaining state (R133). -/
theorem exec_finalize_active (s : State) (hf : s.core.fin = false) :
    exec .finalize s =
      .next (respond .ok (digestData (finalizeCore s.core).st) { s with core := finalizeCore s.core }) :=
  execFinalize_active s hf

/-- A second FINALIZE is rejected (R133). -/
theorem exec_finalize_final (s : State) (hf : s.core.fin = true) :
    exec .finalize s = .next (reject .eFinalTwice s) :=
  execFinalize_final s hf

/-- A READ_DIGEST in the FINALIZED phase answers with the digest of `ST` and writes nothing of the core (R134). -/
theorem exec_rddig_final (s : State) (hf : s.core.fin = true) :
    exec .rddig s = .next (respond .ok (digestData s.core.st) s) :=
  execRddig_final s hf

/-- The machine after `append 3, 0x636261` from reset: the worked example's message "abc" is buffered. -/
def abcAppended : State := ⟨⟨Chain.iv, [0x61, 0x62, 0x63], 3, false, false, 0⟩, [⟨0, 0⟩], [], 0⟩

theorem exec_append_abc : exec (.append 3 0x636261) State.reset = .next abcAppended := rfl

/-- The digest of the empty message (R133, corner case (a)). -/
theorem digest_finalize_reset :
    digestData (finalizeCore CoreState.reset).st = 0x7E42F8EC980980E904B2008FD98C1DD4 := by decide +kernel

/-- The digest of "abc". -/
theorem digest_finalize_abc :
    digestData (finalizeCore abcAppended.core).st = 0x727FE1287D3F96D6B04FD23C98500190 := by decide +kernel

/-- Settles O17: the effect in the ACTIVE phase; a rejected FINALIZE keeps the phase and `ST`, so the digest stays
readable; the field errors; the padding at the lengths 0, 55 and from 56 on; and the two examples. -/
theorem finalizeReturnsDigest : Obligations.FinalizeReturnsDigest := by
  refine ⟨decode_finalizeWord, ?_, ?_, ?_, ?_, ?_, ?_⟩
  · intro s p st hf hp hst
    have final_st : st = (finalizeCore s.core).st := by rw [hst, hp]; rfl
    rw [exec_finalize_active s hf, final_st]
    rfl
  · intro s hf
    exact ⟨_, _, exec_finalize_final s hf, rejected_reject .eFinalTwice s,
      exec_rddig_final (reject .eFinalTwice s) hf, rfl⟩
  · intro s c rest hs ho h
    exact step_of_field_error hs (decode_field_error (by omega) (by omega) h)
  · intro buf len
    exact ⟨fun h => h ▸ pad_nil len, pad_of_length_55 len, pad_length_of_gt len, bitLen_toNat len⟩
  · refine ⟨_, exec_finalize_active State.reset rfl, ?_, by decide⟩
    rw [respond_rsp, state_reset_core, digest_finalize_reset]
    rfl
  · refine ⟨_, _, exec_append_abc, exec_finalize_active abcAppended rfl, by decide, ?_⟩
    rw [respond_rsp, digest_finalize_abc]
    rfl

end Sys2Proof.Machine
end

section
/-!
PROOF. READ_DIGEST (spec rule R134).
-/

namespace Sys2Proof.Machine

/-- The word of READ_DIGEST decodes to it with any data word (R62, R65). -/
theorem decode_rddigWord (din : Dword) : decode ⟨0x40000000, din⟩ = .instr .rddig :=
  (decode_ignores_din (c := ⟨0x40000000, 0⟩) din (by decide)).trans (by decide)

/-- Settles O18: a READ_DIGEST writes neither `ST` nor the phase, so the next one answers alike, and the first after a
FINALIZE reads the `ST` whose digest FINALIZE returned. -/
theorem readDigestReturnsDigest : Obligations.ReadDigestReturnsDigest := by
  refine ⟨decode_rddigWord, exec_rddig_final, ?_, ?_, ?_, ?_⟩
  · intro s hf
    exact ⟨_, execRddig_active s hf, rejected_reject .eReadEarly s⟩
  · intro s c rest hs ho h
    exact step_of_field_error hs (decode_field_error (by omega) (by omega) h)
  · intro s hf
    exact ⟨_, _, _, _, exec_finalize_active s hf, respond_rsp .., exec_rddig_final _ (finalizeCore_fin _),
      respond_rsp .., exec_rddig_final _ (finalizeCore_fin _), respond_rsp ..⟩
  · refine ⟨_, _, _, exec_append_abc, exec_finalize_active abcAppended rfl,
      exec_rddig_final _ (finalizeCore_fin _), ?_⟩
    rw [respond_rsp, respond_core, digest_finalize_abc]
    rfl

end Sys2Proof.Machine
end

section
/-!
PROOF. A rejected command (spec rule R174): its response tells it from a performed one, and its effect is that of
`reject` alone.
-/

namespace Sys2Proof.Machine

/-- Every command is either rejected, or performed and answered with code 0 (R60, R170). -/
theorem exec_rejects_or_respondsOk {i : Instr} {s t : State} (h : exec i s = .next t) :
    (∃ e, t = reject e s) ∨ ∃ data core, t = respond .ok data { s with core := core } := by
  obtain ⟨e, rfl, -⟩ | ⟨-, rfl⟩ | ⟨-, rfl⟩ | ⟨n, din, -, -, -, rfl⟩ | ⟨-, -, rfl⟩ | ⟨-, -, rfl⟩ := exec_cases h
  · exact .inl ⟨e, rfl⟩
  · exact .inr ⟨_, s.core, rfl⟩
  · exact .inr ⟨_, _, rfl⟩
  · exact .inr ⟨_, _, rfl⟩
  · exact .inr ⟨_, _, rfl⟩
  · exact .inr ⟨_, s.core, rfl⟩

/-- So is every command word, legal or not: the decoder rejects what it does not know (R68). -/
theorem serve_rejects_or_respondsOk {c : Command} {s t : State} (h : serve c s = .next t) :
    (∃ e, t = reject e s) ∨ ∃ data core, t = respond .ok data { s with core := core } := by
  cases hd : decode c with
  | instr i =>
    rw [serve_instr c i s hd] at h
    exact exec_rejects_or_respondsOk h
  | reject e =>
    rw [serve_reject c e s hd] at h
    cases h
    exact .inl ⟨e, rfl⟩

/-- A nonzero response code is the code of a rejection (R174): a performed command answers 0. -/
theorem rejected_of_code_ne_zero {c : Command} {s t : State} {r : Response} (h : serve c s = .next t)
    (hr : t.rsp = s.rsp ++ [r]) (hcode : r.code ≠ 0) : r.data = 0 ∧ Rejected r.code s t := by
  obtain ⟨e, rfl⟩ | ⟨data, core, rfl⟩ := serve_rejects_or_respondsOk h
  · obtain rfl : ⟨e.bits, 0⟩ = r := by simpa using hr
    exact ⟨rfl, rejected_reject e s⟩
  · obtain rfl : ⟨Code.ok.bits, data⟩ = r := by simpa using hr
    exact absurd ((bits_eq_zero .ok).mpr rfl) hcode

/-- Settles O10: taking the command leaves the core and the responses, so its nonzero code is that of a rejection. -/
theorem rejectionWritesOnlyStickyBits : Obligations.RejectionWritesOnlyStickyBits := by
  intro s t c rest r hs hstep hr hcode
  rw [step_command s c rest hs] at hstep
  obtain ⟨hdata, rejected⟩ := rejected_of_code_ne_zero hstep hr hcode
  exact ⟨hdata, rejected.err, rejected.ecode, rejected.st, rejected.buf, rejected.len, rejected.fin⟩

end Sys2Proof.Machine
end

section
/-!
PROOF. Encoding and decoding undo each other (spec rules R61 to R65, R68).
-/

namespace Sys2Proof.Machine

section CommandWord
variable (op cnt : BitVec 4) (din : Dword)

/-- The fields of an assembled command word, as numbers. -/
@[simp] theorem opNum_commandWord : opNum ⟨commandWord op cnt, din⟩ = op.toNat := by
  rw [← (fields_toNat _).1, (Laws.commandWord_fields op cnt).1]

@[simp] theorem cntNum_commandWord : cntNum ⟨commandWord op cnt, din⟩ = cnt.toNat := by
  rw [← (fields_toNat _).2.1, (Laws.commandWord_fields op cnt).2.1]

@[simp] theorem rsvNum_commandWord : rsvNum ⟨commandWord op cnt, din⟩ = 0 := by
  rw [← (fields_toNat _).2.2, (Laws.commandWord_fields op cnt).2.2]
  rfl

end CommandWord

/-- A command word is its fields put together: one with `RSV = 0` is the assembled word of its opcode and count. -/
theorem commandWord_of_fields {c : Command} {op cnt : BitVec 4} (ho : opNum c = op.toNat) (hc : cntNum c = cnt.toNat)
    (hr : rsvNum c = 0) : commandWord op cnt = c.cmd := by
  apply BitVec.eq_of_toNat_eq
  have assembled := cmd_toNat ⟨commandWord op cnt, c.din⟩
  rw [opNum_commandWord, cntNum_commandWord, rsvNum_commandWord] at assembled
  rw [cmd_toNat c, ho, hc, hr, ← assembled]

/-- The word of an APPEND of at most 8 bytes decodes to it. -/
theorem decode_encode_append {n : BitVec 4} (din : Dword) (hn : n.toNat ≤ 8) :
    decode (encode (.append n din)) = .instr (.append n din) := by
  have decoded := decode_append (c := ⟨commandWord 2 n, din⟩) (opNum_commandWord ..) (rsvNum_commandWord ..)
    (by rw [cntNum_commandWord]; exact hn)
  rwa [cntNum_commandWord, BitVec.ofNat_toNat, BitVec.setWidth_eq] at decoded

/-- Settles O6: each command's word has the fields that the decoder's clause for it asks for. -/
theorem encodeThenDecode : Obligations.EncodeThenDecode := by
  intro i hi
  cases i with
  | status => exact decode_status (opNum_commandWord ..) (rsvNum_commandWord ..) (cntNum_commandWord ..)
  | init => exact decode_init (opNum_commandWord ..) (rsvNum_commandWord ..) (cntNum_commandWord ..)
  | append n din => exact decode_encode_append din (by simpa [Instr.wf] using hi)
  | finalize => exact decode_finalize (opNum_commandWord ..) (rsvNum_commandWord ..) (cntNum_commandWord ..)
  | rddig => exact decode_rddig (opNum_commandWord ..) (rsvNum_commandWord ..) (cntNum_commandWord ..)

/-- What the decoder accepts, command by command: an APPEND with its count and data word, or a command told by its
opcode, under a word with no other bit set. -/
theorem decode_instr_cases {c : Command} {i : Instr} (h : decode c = .instr i) : rsvNum c = 0 ∧
    (opNum c = 2 ∧ cntNum c ≤ 8 ∧ i = .append (BitVec.ofNat 4 (cntNum c)) c.din ∨
     cntNum c = 0 ∧ (opNum c = 0 ∧ i = .status ∨ opNum c = 1 ∧ i = .init ∨ opNum c = 3 ∧ i = .finalize ∨
       opNum c = 4 ∧ i = .rddig)) := by
  have same : ∀ {j}, decode c = .instr j → i = j := fun hj => Decoded.instr.inj (h.symm.trans hj)
  obtain ⟨hr, ⟨ho, hc⟩ | ⟨ho, ho2, hc⟩⟩ := (decodes_iff_legalFields c).mp ⟨i, h⟩
  · exact ⟨hr, .inl ⟨ho, hc, same (decode_append ho hr hc)⟩⟩
  · refine ⟨hr, .inr ⟨hc, ?_⟩⟩
    obtain h0 | h1 | h3 | h4 : opNum c = 0 ∨ opNum c = 1 ∨ opNum c = 3 ∨ opNum c = 4 := by omega
    · exact .inl ⟨h0, same (decode_status h0 hr hc)⟩
    · exact .inr (.inl ⟨h1, same (decode_init h1 hr hc)⟩)
    · exact .inr (.inr (.inl ⟨h3, same (decode_finalize h3 hr hc)⟩))
    · exact .inr (.inr (.inr ⟨h4, same (decode_rddig h4 hr hc)⟩))

/-- A word that decodes is the encoded word of its command. -/
theorem encode_cmd_of_decode {c : Command} {i : Instr} (h : decode c = .instr i) : (encode i).cmd = c.cmd := by
  obtain ⟨hr, ⟨ho, hc, rfl⟩ | ⟨hc, ⟨ho, rfl⟩ | ⟨ho, rfl⟩ | ⟨ho, rfl⟩ | ⟨ho, rfl⟩⟩⟩ := decode_instr_cases h
  · exact commandWord_of_fields ho (Nat.mod_eq_of_lt (cntNum_lt c)).symm hr
  all_goals exact commandWord_of_fields ho hc hr

/-- A decoded command is well-formed: the decoder has checked its count (R63). -/
theorem wf_of_decode {c : Command} {i : Instr} (h : decode c = .instr i) : i.wf = true := by
  obtain ⟨-, ⟨-, hc, rfl⟩ | ⟨-, ⟨-, rfl⟩ | ⟨-, rfl⟩ | ⟨-, rfl⟩ | ⟨-, rfl⟩⟩⟩ := decode_instr_cases h
  · simpa [Instr.wf, Nat.mod_eq_of_lt (cntNum_lt c)] using hc
  all_goals rfl

/-- Settles O7: the fields of a word that decodes are those its command is encoded with, and only an APPEND, opcode 2,
takes the data word. -/
theorem decodeThenEncode : Obligations.DecodeThenEncode := by
  intro c i h
  refine ⟨wf_of_decode h, encode_cmd_of_decode h, ?_⟩
  obtain ⟨-, ⟨-, -, hi⟩ | ⟨-, hop⟩⟩ := decode_instr_cases h
  · exact .inl ⟨_, hi⟩
  · exact .inr fun din => (decode_ignores_din din (by omega)).trans h

/-- Settles O8: fixed words, each read off the opcode map. -/
theorem specWordsDecode : Obligations.SpecWordsDecode := by
  unfold Obligations.SpecWordsDecode
  decide

end Sys2Proof.Machine
end

section
/-!
PROOF. The meaning of a command as three functions: the code it is rejected with, which its operands and the phase
decide, and the core and the data of its response where it is performed (spec rules R113 to R115, R133, R134).
-/

namespace Sys2Proof.Machine

/-- The code a command is rejected with in a phase, and none where it is performed (R172). -/
def rejection (fin : Bool) : Instr → Option Code
  | .status => none
  | .init => none
  | .append n _ => if 8 < n.toNat then some .eField else if fin then some .eAppendFinal else none
  | .finalize => if fin then some .eFinalTwice else none
  | .rddig => if fin then none else some .eReadEarly

/-- An APPEND is performed with a legal count in the ACTIVE phase. -/
theorem rejection_append_eq_none {fin : Bool} {n : BitVec 4} {din : Dword} :
    rejection fin (.append n din) = none ↔ n.toNat ≤ 8 ∧ fin = false := by
  rw [← Nat.not_lt]
  by_cases hn : 8 < n.toNat <;> cases fin <;> simp [rejection, hn]

/-- A FINALIZE is performed in the ACTIVE phase. -/
theorem rejection_finalize_eq_none {fin : Bool} : rejection fin .finalize = none ↔ fin = false := by
  cases fin <;> simp [rejection]

/-- A READ_DIGEST is performed in the FINALIZED phase. -/
theorem rejection_rddig_eq_none {fin : Bool} : rejection fin .rddig = none ↔ fin = true := by
  cases fin <;> simp [rejection]

/-- The core after a performed command. -/
def performedCore : Instr → CoreState → CoreState
  | .status, c => c
  | .init, _ => initCore
  | .append n din, c => appendCore (lanes din n.toNat) c
  | .finalize, c => finalizeCore c
  | .rddig, c => c

/-- The data a performed command answers with. -/
def performedData : Instr → CoreState → RspData
  | .status, c => (statusReg c).setWidth 128
  | .init, _ => 0
  | .append _ _, _ => 0
  | .finalize, c => digestData (finalizeCore c).st
  | .rddig, c => digestData c.st

/-- A performed command: its core and its response, with code 0. -/
def perform (i : Instr) (s : State) : State :=
  respond .ok (performedData i s.core) { s with core := performedCore i s.core }

section Perform
variable (i : Instr) (s : State)

@[simp] theorem perform_core : (perform i s).core = performedCore i s.core := rfl
@[simp] theorem perform_rsp : (perform i s).rsp = s.rsp ++ [⟨0, performedData i s.core⟩] := rfl
@[simp] theorem perform_host : (perform i s).host = s.host := rfl
@[simp] theorem perform_hostIndex : (perform i s).hostIndex = s.hostIndex := rfl

end Perform

/-- The state after a command, performed or rejected. -/
def afterInstr (i : Instr) (s : State) : State :=
  match rejection s.core.fin i with
  | some e => reject e s
  | none => perform i s

theorem afterInstr_of_rejection {i : Instr} {s : State} {e : Code} (h : rejection s.core.fin i = some e) :
    afterInstr i s = reject e s := by rw [afterInstr, h]

theorem afterInstr_of_performed {i : Instr} {s : State} (h : rejection s.core.fin i = none) :
    afterInstr i s = perform i s := by rw [afterInstr, h]

/-- Every command ends in a next state (R60, R174). -/
theorem exec_eq_afterInstr (i : Instr) (s : State) : exec i s = .next (afterInstr i s) := by
  cases i with
  | status => rfl
  | init => rfl
  | append n din =>
    change execAppend n din s = _
    by_cases hn : 8 < n.toNat
    · have rejected : rejection s.core.fin (.append n din) = some .eField := if_pos hn
      rw [execAppend_count n din s hn, afterInstr_of_rejection rejected]
    · cases hf : s.core.fin with
      | true =>
        have rejected : rejection s.core.fin (.append n din) = some .eAppendFinal := by simp [rejection, hn, hf]
        rw [execAppend_final n din s (Nat.le_of_not_lt hn) hf, afterInstr_of_rejection rejected]
      | false =>
        rw [execAppend_active n din s (Nat.le_of_not_lt hn) hf,
          afterInstr_of_performed (rejection_append_eq_none.mpr ⟨Nat.le_of_not_lt hn, hf⟩)]
        rfl
  | finalize =>
    cases hf : s.core.fin with
    | true => rw [exec_finalize_final s hf, afterInstr_of_rejection (e := .eFinalTwice) (by rw [hf]; rfl)]
    | false =>
      rw [exec_finalize_active s hf, afterInstr_of_performed (rejection_finalize_eq_none.mpr hf)]
      rfl
  | rddig =>
    cases hf : s.core.fin with
    | true =>
      rw [exec_rddig_final s hf, afterInstr_of_performed (rejection_rddig_eq_none.mpr hf)]
      rfl
    | false =>
      change execRddig s = _
      rw [execRddig_active s hf, afterInstr_of_rejection (e := .eReadEarly) (by rw [hf]; rfl)]

/-- A rejected command is answered with an error code, never with `ok` (R172). -/
theorem rejection_ne_ok {fin : Bool} {i : Instr} {e : Code} (h : rejection fin i = some e) : e ≠ .ok := by
  rintro rfl
  cases i with
  | status => cases h
  | init => cases h
  | append n din => by_cases hn : 8 < n.toNat <;> cases fin <;> simp [rejection, hn] at h
  | finalize => cases fin <;> simp [rejection] at h
  | rddig => cases fin <;> simp [rejection] at h

end Sys2Proof.Machine
end

section
/-!
PROOF. One step of the machine, said once: which inputs it takes and what it then does (spec rules R60, R170, R185,
R190, R191, R194, R195).
-/

namespace Sys2Proof.Machine

/-- The state after a command of the port, of any word. -/
def afterCommand (c : Command) (s : State) : State :=
  match decode c with
  | .instr i => afterInstr i s
  | .reject e => reject e s

theorem afterCommand_instr {c : Command} {i : Instr} (h : decode c = .instr i) (s : State) :
    afterCommand c s = afterInstr i s := by rw [afterCommand, h]

theorem afterCommand_reject {c : Command} {e : Code} (h : decode c = .reject e) (s : State) :
    afterCommand c s = reject e s := by rw [afterCommand, h]

/-- The port answers every command. -/
theorem serve_eq_afterCommand (c : Command) (s : State) : serve c s = .next (afterCommand c s) := by
  cases h : decode c with
  | instr i => rw [serve_instr c i s h, exec_eq_afterInstr, afterCommand_instr h]
  | reject e => rw [serve_reject c e s h, afterCommand_reject h]

/-- The code a command of the port is answered with in a phase (R172). -/
def answerCode (fin : Bool) (c : Command) : Code :=
  match decode c with
  | .instr i => (rejection fin i).getD .ok
  | .reject e => e

theorem answerCode_instr {c : Command} {i : Instr} (h : decode c = .instr i) (fin : Bool) :
    answerCode fin c = (rejection fin i).getD .ok := by rw [answerCode, h]

theorem answerCode_reject {c : Command} {e : Code} (h : decode c = .reject e) (fin : Bool) :
    answerCode fin c = e := by rw [answerCode, h]

/-- Every command of the port is rejected, or decodes and is performed; its word and the phase decide which, so that any
two states of one phase take it alike. -/
theorem afterCommand_cases (c : Command) (fin : Bool) :
    (∃ e, e ≠ .ok ∧ answerCode fin c = e ∧ ∀ s, s.core.fin = fin → afterCommand c s = reject e s) ∨
    (∃ i, decode c = .instr i ∧ rejection fin i = none ∧ answerCode fin c = .ok ∧
      ∀ s, s.core.fin = fin → afterCommand c s = perform i s) := by
  cases hc : decode c with
  | reject e =>
    have not_ok : e ≠ .ok := by rcases decode_reject_cases hc with rfl | rfl <;> decide
    exact .inl ⟨e, not_ok, answerCode_reject hc fin, fun s _ => afterCommand_reject hc s⟩
  | instr i =>
    have code := answerCode_instr hc fin
    cases hi : rejection fin i with
    | some e =>
      refine .inl ⟨e, rejection_ne_ok hi, by rw [code, hi]; rfl, fun s hs => ?_⟩
      rw [afterCommand_instr hc, afterInstr_of_rejection (by rw [hs, hi])]
    | none =>
      refine .inr ⟨i, rfl, hi, by rw [code, hi]; rfl, fun s hs => ?_⟩
      rw [afterCommand_instr hc, afterInstr_of_performed (by rw [hs, hi])]

theorem afterCommand_rsp (c : Command) (s : State) :
    ∃ data, (afterCommand c s).rsp = s.rsp ++ [⟨(answerCode s.core.fin c).bits, data⟩] := by
  obtain ⟨e, -, code, rejected⟩ | ⟨i, -, -, code, performed⟩ := afterCommand_cases c s.core.fin
  · exact ⟨_, by rw [rejected s rfl, code]; rfl⟩
  · exact ⟨_, by rw [performed s rfl, code]; rfl⟩

@[simp] theorem afterCommand_host (c : Command) (s : State) : (afterCommand c s).host = s.host := by
  obtain ⟨e, -, -, rejected⟩ | ⟨i, -, -, -, performed⟩ := afterCommand_cases c s.core.fin
  · rw [rejected s rfl, reject_host]
  · rw [performed s rfl, perform_host]

@[simp] theorem afterCommand_hostIndex (c : Command) (s : State) :
    (afterCommand c s).hostIndex = s.hostIndex := by
  obtain ⟨e, -, -, rejected⟩ | ⟨i, -, -, -, performed⟩ := afterCommand_cases c s.core.fin
  · rw [rejected s rfl, reject_hostIndex]
  · rw [performed s rfl, perform_hostIndex]

/-- A step that takes a command is total: it ends in the state after the command. -/
theorem step_command_next {s : State} {c : Command} {rest : List HostInput} (h : s.host = .command c :: rest) :
    step s = .next (afterCommand c (issue rest s)) := by
  rw [step_command s c rest h, serve_eq_afterCommand]

theorem step_idle {s : State} (h : s.host = []) : step s = .next s := by simp [step, takeInput, h]

theorem step_overlap {s : State} {c d : Command} {rest : List HostInput} (h : s.host = .overlap c d :: rest) :
    step s = .refused .commandOutstanding := by simp [step, takeInput, h]

theorem step_otherIssuer {s : State} {c : Command} {rest : List HostInput} (h : s.host = .otherIssuer c :: rest) :
    step s = .refused .secondIssuer := by simp [step, takeInput, h]

/-- Everything a step can do: nothing when idle, a reset, a reset that drops a command, or a command served. -/
theorem step_cases {s t : State} (h : step s = .next t) :
    (s.host = [] ∧ t = s) ∨
    (∃ rest, s.host = .reset :: rest ∧ t = takeReset (dropInput rest s)) ∨
    (∃ c rest, s.host = .commandReset c :: rest ∧ t = interruptedByReset c (issue rest s)) ∨
    (∃ c rest, s.host = .command c :: rest ∧ t = afterCommand c (issue rest s)) := by
  have ends_at : ∀ {u}, step s = .next u → t = u := fun hu => Host.Outcome.next.inj (h.symm.trans hu)
  match hs : s.host with
  | [] => exact .inl ⟨rfl, ends_at (step_idle hs)⟩
  | .reset :: rest => exact .inr (.inl ⟨rest, rfl, ends_at (step_reset s rest hs)⟩)
  | .commandReset c :: rest => exact .inr (.inr (.inl ⟨c, rest, rfl, ends_at (step_commandReset s c rest hs)⟩))
  | .command c :: rest => exact .inr (.inr (.inr ⟨c, rest, rfl, ends_at (step_command_next hs)⟩))
  | .overlap c d :: rest => simp [step_overlap hs] at h
  | .otherIssuer c :: rest => simp [step_otherIssuer hs] at h

/-- Settles O9: serving a word that decodes is `exec` of its command. -/
theorem stepRunsDecodedCommand : Obligations.StepRunsDecodedCommand := by
  intro s c rest i hs hi
  rw [step_command s c rest hs, serve_instr c i _ hi]
  rfl

/-- Settles O12: the step with no input. -/
theorem idleCoreHoldsState : Obligations.IdleCoreHoldsState := fun _ => step_idle

/-- Settles O11: the state after a command has one more response, and the port has moved past it. -/
theorem commandAnsweredOnce : Obligations.CommandAnsweredOnce := by
  intro s c rest hs
  obtain ⟨data, hr⟩ := afterCommand_rsp c (issue rest s)
  exact ⟨_, _, step_command_next hs, hr, afterCommand_host .., afterCommand_hostIndex ..⟩

/-- Settles O13: each input has its step but the two that a well-behaved host never gives. -/
theorem onlyHostMisuseStops : Obligations.OnlyHostMisuseStops := by
  refine fun s => ⟨⟨?_, fun proper => ?_⟩, fun _ _ _ => step_overlap, fun _ _ => step_otherIssuer⟩
  · rintro ⟨t, ht⟩ x rest hs
    constructor
    · rintro c d rfl
      simp [step_overlap hs] at ht
    · rintro c rfl
      simp [step_otherIssuer hs] at ht
  · match hs : s.host with
    | [] => exact ⟨_, step_idle hs⟩
    | .reset :: rest => exact ⟨_, step_reset s rest hs⟩
    | .commandReset c :: rest => exact ⟨_, step_commandReset s c rest hs⟩
    | .command c :: rest => exact ⟨_, step_command_next hs⟩
    | .overlap c d :: rest => exact absurd rfl ((proper _ rest hs).1 c d)
    | .otherIssuer c :: rest => exact absurd rfl ((proper _ rest hs).2 c)

/-- Settles O4: the step on an interrupted command is a reset. -/
theorem resetDiscardsRunningCommand : Obligations.ResetDiscardsRunningCommand := fun s c rest hs =>
  ⟨_, step_commandReset s c rest hs, interruptedByReset_core .., interruptedByReset_rsp .., interruptedByReset_host ..⟩

/-- `STATUS` reads 0x00 after reset (R33). -/
theorem statusReg_reset : statusReg CoreState.reset = 0x00 := by decide

/-- Settles O3: reset writes the reset core and nothing else; that core is ACTIVE, and INIT writes the same one. -/
theorem resetRestoresResetState : Obligations.ResetRestoresResetState := by
  intro s rest hs
  refine ⟨_, step_reset s rest hs, rfl, statusReg_reset, fun n din hn => ?_, ?_⟩
  · exact ⟨_, exec_append_active n din _ hn rfl, respond_rsp ..⟩
  · exact ⟨_, exec_init s, initCore_eq_reset, respond_rsp ..⟩

end Sys2Proof.Machine
end

section
/-!
PROOF. The invariant of the core's state (spec rules R25, R27, R32), command by command and step by step.
-/

namespace Sys2Proof.Machine

/-- The reset core meets the invariant. -/
theorem reset_inv : CoreState.reset.Inv := ⟨by decide, fun _ => rfl, by decide, by decide⟩

/-- The number of a code is a legal `ECODE`. -/
theorem bits_toNat_le (e : Code) : e.bits.toNat ≤ 5 := by cases e <;> decide

/-- A rejection keeps the status legal: it sets `ERR` and leaves a nonzero, legal `ECODE` (R174). -/
theorem statusOk_recordError {c : CoreState} {e : Code} (h : c.statusOk) (he : e ≠ .ok) :
    (recordError e c).statusOk := by
  by_cases hz : c.ecode = 0
  · have first : (recordError e c).ecode = e.bits := if_pos hz
    have nonzero : (recordError e c).ecode ≠ 0 := first ▸ (bits_eq_zero e).not.mpr he
    exact ⟨first ▸ bits_toNat_le e, iff_of_false nonzero (by simp)⟩
  · have kept : (recordError e c).ecode = c.ecode := if_neg hz
    exact ⟨kept ▸ h.1, iff_of_false (kept ▸ hz) (by simp)⟩

theorem inv_recordError {c : CoreState} {e : Code} (h : c.Inv) (he : e ≠ .ok) : (recordError e c).Inv :=
  ⟨h.buf_lt, h.buf_final, statusOk_recordError h.status he⟩

/-- An APPEND keeps fewer than 64 bytes, and leaves the ACTIVE phase and the status as they are. -/
theorem inv_appendCore {c : CoreState} (bs : List Byte) (h : c.Inv) (hf : c.fin = false) : (appendCore bs c).Inv :=
  ⟨absorb_rest_length .., fun hfin => absurd hfin (by simp [hf]), h.status⟩

theorem inv_finalizeCore {c : CoreState} (h : c.Inv) : (finalizeCore c).Inv :=
  ⟨by simp, fun _ => rfl, h.status⟩

theorem inv_performedCore {c : CoreState} {i : Instr} (h : c.Inv) (hi : rejection c.fin i = none) :
    (performedCore i c).Inv := by
  cases i with
  | status => exact h
  | init => exact reset_inv
  | append n din => exact inv_appendCore _ h (rejection_append_eq_none.mp hi).2
  | finalize => exact inv_finalizeCore h
  | rddig => exact h

theorem inv_afterCommand {s : State} (c : Command) (h : s.Inv) : (afterCommand c s).Inv := by
  obtain ⟨e, not_ok, -, rejected⟩ | ⟨i, -, hi, -, performed⟩ := afterCommand_cases c s.core.fin
  · exact rejected s rfl ▸ inv_recordError h not_ok
  · exact performed s rfl ▸ inv_performedCore h hi

/-- Settles O45: a reset meets the invariant, and a command keeps it, rejected or performed. -/
theorem stepKeepsInvariant : Obligations.StepKeepsInvariant := by
  intro s t hs hstep
  obtain ⟨-, rfl⟩ | ⟨_, -, rfl⟩ | ⟨_, _, -, rfl⟩ | ⟨c, rest, -, rfl⟩ := step_cases hstep
  · exact hs
  · exact reset_inv
  · exact reset_inv
  · exact inv_afterCommand (s := issue rest s) c hs

end Sys2Proof.Machine
end

section
/-!
PROOF. The padding (spec rules R130, R131): the least fill that leaves room for the length field, and the one or two
final blocks it makes of a tail.
-/

namespace Sys2Proof.Machine

/-- No fewer zero bytes than `padZeros` reach 56 modulo 64. -/
theorem padZeros_le {tail y : Nat} (h : (tail + 1 + y) % 64 = 56) : padZeros tail ≤ y := by
  unfold padZeros; omega

/-- Settles O32: the fill of R130 reaches 56 modulo 64, and is the least that does. -/
theorem padFillsToLengthField : Obligations.PadFillsToLengthField := fun buf len =>
  ⟨padZeros buf.length, bitLen len, rfl, bitLen_toNat len, padZeros_congr _, fun _ => padZeros_le⟩

/-- A tail of at most 55 bytes is padded to one block (R131). -/
theorem pad_length_of_le {buf : List Byte} (len : Dword) (h : buf.length ≤ 55) : (pad buf len).length = 64 := by
  rw [pad_length, padZeros_of_le h]; omega

/-- The fill of a tail of 56 to 63 bytes is cut by the end of its block: 63 zeros less the tail before it, 56 after. -/
theorem pad_of_gt {buf : List Byte} (len : Dword) (h : 56 ≤ buf.length) (h' : buf.length ≤ 63) :
    pad buf len = (buf ++ [0x80] ++ zeros (63 - buf.length)) ++ (zeros 56 ++ bytes64 (bitLen len)) := by
  have fill : padZeros buf.length = (63 - buf.length) + 56 := by rw [padZeros_of_gt h h']; omega
  have cut : zeros (padZeros buf.length) = zeros (63 - buf.length) ++ zeros 56 := by
    rw [fill]; exact List.replicate_add ..
  rw [pad, cut]
  simp only [List.append_assoc]

/-- Settles O33: the length for a tail of at most 55 bytes, and the two blocks of a longer one. -/
theorem finalBlocksOfTail : Obligations.FinalBlocksOfTail := by
  refine fun buf len h' => ⟨pad_length_of_le len, fun h => ⟨pad_length_of_gt len h h', ?_⟩⟩
  have first_block : (buf ++ [0x80] ++ zeros (63 - buf.length)).length = 64 := by simp; omega
  rw [pad_of_gt len h h']
  exact ⟨List.take_left' first_block, List.drop_left' first_block⟩

end Sys2Proof.Machine
end

section
/-!
PROOF. Absorbing in pieces (spec rule R111): the chain and the tail depend on the bytes and not on how they are cut.
-/

namespace Sys2Proof.Machine

/-- Absorbing `s` and then `s'` is absorbing `s ++ s'`. By induction on the bytes gathered: below 64 nothing is
compressed by `s`, and from 64 on both sides compress the same first block. -/
theorem absorb_append (st : Chain) (buf s s' : List Byte) :
    absorb (absorb st buf s).1 (absorb st buf s).2 s' = absorb st buf (s ++ s') := by
  induction hn : (buf ++ s).length using Nat.strongRecOn generalizing st buf s with
  | _ n ih =>
    rcases Nat.lt_or_ge (buf ++ s).length 64 with short | full
    · rw [absorb_of_lt st buf s short, absorb, absorb, List.append_assoc]
    · have full' : 64 ≤ (buf ++ (s ++ s')).length := by rw [← List.append_assoc, List.length_append]; omega
      have fewer : ((buf ++ s).drop 64 ++ []).length < n := by
        rw [List.append_nil, List.length_drop]; omega
      have same_block : (buf ++ (s ++ s')).take 64 = (buf ++ s).take 64 := by
        rw [← List.append_assoc, List.take_append_of_le_length full]
      have same_rest : (buf ++ (s ++ s')).drop 64 = (buf ++ s).drop 64 ++ s' := by
        rw [← List.append_assoc, List.drop_append_of_le_length full]
      rw [absorb_of_ge st buf s full, ih _ fewer _ _ _ rfl, absorb_of_ge st buf (s ++ s') full', same_block,
        same_rest, absorb, absorb, List.append_nil, List.nil_append]

/-- Counting `n` bytes and then `n'` is counting `n + n'`. -/
theorem countBytes_countBytes (len : Dword) (n n' : Nat) :
    countBytes (countBytes len n) n' = countBytes len (n + n') := by
  rw [countBytes, countBytes, countBytes, BitVec.ofNat_add, BitVec.add_assoc]

/-- Two APPENDs in a row leave what one APPEND of both sequences leaves. -/
theorem appendCore_appendCore (bs bs' : List Byte) (c : CoreState) :
    appendCore bs' (appendCore bs c) = appendCore (bs ++ bs') c := by
  simp only [appendCore, absorb_append, countBytes_countBytes, List.length_append]

/-- Appending one or more chunks in turn is appending their concatenation, whatever the tail. -/
theorem foldl_appendCore_cons (bs : List Byte) (bss : List (List Byte)) (c : CoreState) :
    (bs :: bss).foldl (fun c bs => appendCore bs c) c = appendCore (bs :: bss).flatten c := by
  induction bss generalizing bs c with
  | nil => simp
  | cons bs' bss ih =>
    have merged := ih (bs ++ bs') c
    simp only [List.foldl_cons, List.flatten_cons, appendCore_appendCore, List.append_assoc] at merged ⊢
    exact merged

/-- Settles O31: some chunks are merged from the left, and no chunks leave a short tail as it is. -/
theorem chunkingNeverChangesTheResult : Obligations.ChunkingNeverChangesTheResult := by
  intro c chunks h
  cases chunks with
  | nil => exact (appendCore_nil h).symm
  | cons bs bss => exact foldl_appendCore_cons bs bss c

end Sys2Proof.Machine
end

section
/-!
PROOF. The stream a core's state stands for (spec rules R31, R32, R136): an APPEND adds its bytes, and a FINALIZE ends
the stream with its MD5.
-/

namespace Sys2Proof.Machine

/-- The bytes of a stream after its last whole block: `BUF` of rule R31. -/
def streamTail (m : List Byte) : List Byte := m.drop (64 * (m.length / 64))

theorem streamTail_length (m : List Byte) : (streamTail m).length = m.length % 64 := by
  rw [streamTail, List.length_drop]; omega

/-- While it has whole blocks, the loop of `absorb` compresses them one after another. -/
theorem absorbBlocks_chain (k : Nat) (st : Chain) (w : List Byte) (h : 64 * k ≤ w.length) :
    (absorbBlocks k st w).1 = compressBlocks k st w := by
  induction k generalizing st w with
  | zero => rfl
  | succ k ih =>
    have rest_long : 64 * k ≤ (w.drop 64).length := by rw [List.length_drop]; omega
    rw [absorbBlocks_of_ge k st w (by omega), ih _ _ rest_long, compressBlocks]

/-- The chain and the tail of a stream are what absorbing it all from the initial value leaves. -/
theorem absorb_iv (m : List Byte) : absorb Chain.iv [] m = (streamChain m, streamTail m) := by
  refine Prod.ext ?_ (absorb_rest Chain.iv [] m)
  exact absorbBlocks_chain _ _ _ (Nat.mul_div_le m.length 64)

/-- Absorbing more bytes follows the stream. -/
theorem absorb_stream (m bs : List Byte) :
    absorb (streamChain m) (streamTail m) bs = (streamChain (m ++ bs), streamTail (m ++ bs)) := by
  have pieces := absorb_append Chain.iv [] m bs
  rwa [absorb_iv, absorb_iv] at pieces

/-- What the padding adds after `n` bytes counted as `len` (R130). -/
def padding (n : Nat) (len : Dword) : List Byte := [0x80] ++ zeros (padZeros n) ++ bytes64 (bitLen len)

theorem pad_eq_append_padding (buf : List Byte) (len : Dword) : pad buf len = buf ++ padding buf.length len := by
  simp [pad, padding]

/-- The padding depends on the number of bytes modulo 64 only. -/
theorem padding_mod (n : Nat) (len : Dword) : padding (n % 64) len = padding n len := by
  have same_fill : padZeros (n % 64) = padZeros n := by unfold padZeros; omega
  rw [padding, padding, same_fill]

/-- The length field of R136 is that of the Length Counter, which counts modulo 2^64. -/
theorem bitLen_ofNat (n : Nat) : bitLen (BitVec.ofNat 64 n) = BitVec.ofNat 64 (8 * n % 2 ^ 64) := by
  apply BitVec.eq_of_toNat_eq
  rw [bitLen_toNat]
  simp

/-- The padded message of R136 is the message with the padding after it. -/
theorem md5Padded_eq_append_padding (m : List Byte) :
    md5Padded m = m ++ padding m.length (BitVec.ofNat 64 m.length) := by
  rw [md5Padded, padding, bitLen_ofNat, padZeros]
  simp only [List.append_assoc]

/-- A padded tail shorter than a block is one block or two. -/
theorem pad_length_cases {buf : List Byte} (len : Dword) (h : buf.length < 64) :
    (pad buf len).length = 64 ∨ (pad buf len).length = 128 := by
  rcases Nat.lt_or_ge 55 buf.length with long | short
  · exact .inr (pad_length_of_gt len long (by omega))
  · exact .inl (pad_length_of_le len short)

/-- Absorbing one or two whole blocks compresses them as FINALIZE does. -/
theorem absorb_chain_of_blocks (st : Chain) (buf s : List Byte)
    (h : (buf ++ s).length = 64 ∨ (buf ++ s).length = 128) : (absorb st buf s).1 = compressFinal st (buf ++ s) := by
  rcases h with one | two
  · rw [absorb_exact_block st buf s one, compressFinal, if_neg (by omega), List.take_of_length_le one.le]
  · have second : ((buf ++ s).drop 64 ++ []).length = 64 := by rw [List.append_nil, List.length_drop, two]
    have all_of_it : ((buf ++ s).drop 64).take 64 = (buf ++ s).drop 64 :=
      List.take_of_length_le (by rw [List.length_drop, two])
    rw [absorb_of_ge st buf s (by omega), absorb_exact_block _ _ _ second, compressFinal, if_pos two,
      List.append_nil, all_of_it]

/-- FINALIZE on the chain, tail and length of a stream leaves the final chaining state of its bytes (R133, R136). -/
theorem compressFinal_stream (m : List Byte) :
    compressFinal (streamChain m) (pad (streamTail m) (BitVec.ofNat 64 m.length)) = md5State m := by
  have tail_padding : padding (streamTail m).length (BitVec.ofNat 64 m.length) =
      padding m.length (BitVec.ofNat 64 m.length) := by rw [streamTail_length, padding_mod]
  have tail_short : (streamTail m).length < 64 := by rw [streamTail_length]; omega
  have blocks := pad_length_cases (BitVec.ofNat 64 m.length) tail_short
  rw [pad_eq_append_padding, tail_padding] at blocks ⊢
  calc compressFinal (streamChain m) (streamTail m ++ padding m.length (BitVec.ofNat 64 m.length))
      = (absorb (streamChain m) (streamTail m) (padding m.length (BitVec.ofNat 64 m.length))).1 :=
        (absorb_chain_of_blocks _ _ _ blocks).symm
    _ = streamChain (md5Padded m) := by rw [absorb_stream, md5Padded_eq_append_padding]
    _ = md5State m := rfl

/-- The fresh core stands for the empty stream. -/
theorem represents_fresh : Represents Stream.fresh CoreState.reset :=
  ⟨rfl, rfl, fun _ => rfl, fun _ => rfl, nofun, nofun⟩

/-- An ACTIVE core stands for `m` exactly when its chain, tail and length are those of `m`. -/
theorem represents_active_iff {m : List Byte} {c : CoreState} : Represents ⟨m, false⟩ c ↔
    c.fin = false ∧ c.st = streamChain m ∧ c.buf = streamTail m ∧ c.len = BitVec.ofNat 64 m.length :=
  ⟨fun h => ⟨h.phase, h.active_st rfl, h.active_buf rfl, h.len⟩,
   fun ⟨hf, hst, hbuf, hlen⟩ => ⟨hf, hlen, fun _ => hst, fun _ => hbuf, nofun, nofun⟩⟩

theorem represents_final_iff {m : List Byte} {c : CoreState} : Represents ⟨m, true⟩ c ↔
    c.fin = true ∧ c.st = md5State m ∧ c.buf = [] ∧ c.len = BitVec.ofNat 64 m.length :=
  ⟨fun h => ⟨h.phase, h.final_st rfl, h.final_buf rfl, h.len⟩,
   fun ⟨hf, hst, hbuf, hlen⟩ => ⟨hf, hlen, nofun, nofun, fun _ => hst, fun _ => hbuf⟩⟩

/-- The status does not enter what a core stands for. -/
theorem represents_recordError {g : Stream} {c : CoreState} (e : Code) (h : Represents g c) :
    Represents g (recordError e c) :=
  ⟨h.phase, h.len, h.active_st, h.active_buf, h.final_st, h.final_buf⟩

/-- An APPEND adds its bytes to the stream. -/
theorem represents_appendCore {m : List Byte} {c : CoreState} (bs : List Byte) (h : Represents ⟨m, false⟩ c) :
    Represents ⟨m ++ bs, false⟩ (appendCore bs c) := by
  obtain ⟨hf, hst, hbuf, hlen⟩ := represents_active_iff.mp h
  have absorbed : absorb c.st c.buf bs = (streamChain (m ++ bs), streamTail (m ++ bs)) := by
    rw [hst, hbuf, absorb_stream]
  refine represents_active_iff.mpr ⟨hf, by simp [absorbed], by simp [absorbed], ?_⟩
  rw [appendCore_len, hlen, countBytes, List.length_append, BitVec.ofNat_add]

/-- A FINALIZE ends the stream with the final chaining state of its bytes. -/
theorem represents_finalizeCore {m : List Byte} {c : CoreState} (h : Represents ⟨m, false⟩ c) :
    Represents ⟨m, true⟩ (finalizeCore c) := by
  obtain ⟨-, hst, hbuf, hlen⟩ := represents_active_iff.mp h
  exact represents_final_iff.mpr ⟨rfl, by rw [finalizeCore_st, hst, hbuf, hlen, compressFinal_stream], rfl, hlen⟩

/-- A rejected command leaves the stream (R174). -/
theorem after_of_rejected {g : Stream} {i : Instr} {e : Code} (h : rejection g.done i = some e) : g.after i = g := by
  obtain ⟨m, done⟩ := g
  cases i with
  | status => rfl
  | init => cases h
  | append n din =>
    refine if_pos (not_not.mp fun legal => ?_)
    have performed : rejection done (.append n din) = none :=
      rejection_append_eq_none.mpr (by simpa [and_comm] using legal)
    simp [performed] at h
  | finalize =>
    cases done with
    | false => cases h
    | true => rfl
  | rddig => rfl

/-- A performed command does to the core what it does to the stream. -/
theorem represents_performedCore {g : Stream} {c : CoreState} {i : Instr} (hg : Represents g c)
    (hi : rejection g.done i = none) : Represents (g.after i) (performedCore i c) := by
  obtain ⟨m, done⟩ := g
  cases i with
  | status => exact hg
  | init => exact represents_fresh
  | append n din =>
    obtain ⟨hn, rfl⟩ : n.toNat ≤ 8 ∧ done = false := rejection_append_eq_none.mp hi
    have bytes_added : Stream.after ⟨m, false⟩ (.append n din) = ⟨m ++ lanes din n.toNat, false⟩ := by
      simp [Stream.after, Nat.not_lt.mpr hn]
    exact bytes_added ▸ represents_appendCore _ hg
  | finalize =>
    obtain rfl : done = false := rejection_finalize_eq_none.mp hi
    exact represents_finalizeCore hg
  | rddig => exact hg

theorem represents_afterInstr {g : Stream} {s : State} (i : Instr) (hg : Represents g s.core) :
    Represents (g.after i) (afterInstr i s).core := by
  have phase : rejection s.core.fin i = rejection g.done i := by rw [hg.phase]
  cases hi : rejection g.done i with
  | some e =>
    rw [afterInstr_of_rejection (phase.trans hi), after_of_rejected hi]
    exact represents_recordError e hg
  | none =>
    rw [afterInstr_of_performed (phase.trans hi)]
    exact represents_performedCore hg hi

theorem represents_afterCommand {g : Stream} {s : State} (c : Command) (hg : Represents g s.core) :
    Represents (g.afterInput (.command c)) (afterCommand c s).core := by
  cases hc : decode c with
  | instr i =>
    rw [afterCommand_instr hc, Stream.afterInput, hc]
    exact represents_afterInstr i hg
  | reject e =>
    rw [afterCommand_reject hc, Stream.afterInput, hc]
    exact represents_recordError e hg

/-- Settles O46: a reset starts afresh on both sides, and a command does the same to the core and to the stream. -/
theorem stepFollowsStream : Obligations.StepFollowsStream := by
  intro g s t x rest hg hs hstep
  obtain ⟨hs', -⟩ | ⟨rest', hs', rfl⟩ | ⟨c, rest', hs', rfl⟩ | ⟨c, rest', hs', rfl⟩ := step_cases hstep <;>
    rw [hs] at hs' <;> cases hs'
  · exact represents_fresh
  · exact represents_fresh
  · exact represents_afterCommand (s := issue rest s) c hg

/-- Settles O44: the reset core meets the invariant and stands for the empty stream. -/
theorem resetMeetsInvariant : Obligations.ResetMeetsInvariant := ⟨reset_inv, represents_fresh⟩

/-- The digest of a FINALIZED core is the MD5 of its stream. -/
theorem digestData_of_represents {m : List Byte} {c : CoreState} (h : Represents ⟨m, true⟩ c) :
    digestData c.st = packBytes (md5 m) := by
  rw [digestData, (represents_final_iff.mp h).2.1, md5]

/-- Settles O47: FINALIZE leaves the final chaining state of the stream's bytes, and READ_DIGEST reads it. -/
theorem digestIsMd5OfStream : Obligations.DigestIsMd5OfStream := by
  rintro ⟨m, done⟩ s hg
  constructor
  · rintro (rfl : done = false)
    refine ⟨rfl, _, exec_finalize_active s hg.phase, ?_, rfl⟩
    rw [respond_rsp, digestData_of_represents (represents_finalizeCore hg)]
    rfl
  · rintro (rfl : done = true)
    refine ⟨_, md5 m, rfl, exec_rddig_final s hg.phase, ?_⟩
    rw [respond_rsp, digestData_of_represents hg]
    rfl

end Sys2Proof.Machine
end

section
/-!
PROOF. Which command writes which element of the core (spec rules R27, R45, R112, R174, R175), and which codes it is
answered with (R172).
-/

namespace Sys2Proof.Machine

/-- No performed command but INIT writes the sticky bits. -/
theorem performedCore_err {i : Instr} (c : CoreState) (h : i ≠ .init) : (performedCore i c).err = c.err := by
  cases i with
  | init => exact absurd rfl h
  | _ => rfl

theorem performedCore_ecode {i : Instr} (c : CoreState) (h : i ≠ .init) :
    (performedCore i c).ecode = c.ecode := by
  cases i with
  | init => exact absurd rfl h
  | _ => rfl

/-- A rejected command is none that is performed in every phase. -/
theorem ne_status_of_rejection {fin : Bool} {i : Instr} {e : Code} (h : rejection fin i = some e) : i ≠ .status := by
  rintro rfl
  cases h

/-- Settles O19: a rejection writes the sticky bits only, and what a performed command writes is `performedCore`. -/
theorem eachElementHasItsWriters : Obligations.EachElementHasItsWriters := by
  intro i s t h
  rw [exec_eq_afterInstr] at h
  cases h
  cases hi : rejection s.core.fin i with
  | some e =>
    rw [afterInstr_of_rejection hi]
    have code : e.bits ≠ 0 := (bits_eq_zero e).not.mpr (rejection_ne_ok hi)
    exact ⟨rfl, rfl, ⟨_, rfl⟩, absurd rfl, absurd rfl, absurd rfl, absurd rfl,
      fun hs => absurd hs (ne_status_of_rejection hi), fun _ _ => ⟨_, rfl, code⟩⟩
  | none =>
    rw [afterInstr_of_performed hi]
    have sticky : (perform i s).core.err ≠ s.core.err ∨ (perform i s).core.ecode ≠ s.core.ecode → i ≠ .init →
        ∃ r, (perform i s).rsp = s.rsp ++ [r] ∧ r.code ≠ 0 := fun written hne =>
      absurd written (by simp [performedCore_err s.core hne, performedCore_ecode s.core hne])
    refine ⟨rfl, rfl, ⟨_, rfl⟩, ?_⟩
    cases i with
    | status => exact ⟨absurd rfl, absurd rfl, absurd rfl, absurd rfl, fun _ => rfl, sticky⟩
    | init =>
      exact ⟨fun _ => .inl rfl, fun _ => .inl rfl, fun _ => .inl rfl, fun _ => .inl rfl, nofun, sticky⟩
    | append n din =>
      have is_append : ∃ n' din', Instr.append n din = .append n' din' := ⟨n, din, rfl⟩
      exact ⟨fun _ => .inr (.inr is_append), fun _ => .inr (.inr is_append), fun _ => .inr is_append, absurd rfl,
        nofun, sticky⟩
    | finalize =>
      exact ⟨fun _ => .inr (.inl rfl), fun _ => .inr (.inl rfl), absurd rfl, fun _ => .inr rfl, nofun, sticky⟩
    | rddig => exact ⟨absurd rfl, absurd rfl, absurd rfl, absurd rfl, nofun, sticky⟩

/-- An APPEND that is not performed leaves `LEN`. -/
theorem len_of_rejected_append {n : BitVec 4} (din : Dword) {s : State} (h : s.core.fin = true ∨ 8 < n.toNat) :
    (afterInstr (.append n din) s).core.len = s.core.len := by
  cases hi : rejection s.core.fin (.append n din) with
  | some e => rw [afterInstr_of_rejection hi]; rfl
  | none =>
    obtain ⟨hn, hf⟩ := rejection_append_eq_none.mp hi
    rcases h with h | h
    · simp [hf] at h
    · omega

/-- The Length Counter as a number (R112). -/
theorem countBytes_toNat (len : Dword) (n : Nat) : (countBytes len n).toNat = (len.toNat + n) % 2 ^ 64 := by
  simp [countBytes]

/-- Settles O20: an OK APPEND counts its bytes, a rejected one leaves the counter, and eight times it is the bit
length. -/
theorem lengthCounterCounts : Obligations.LengthCounterCounts := by
  refine ⟨fun n din s hn hf => ?_, fun n din s h => ?_, fun n => ?_⟩
  · refine ⟨_, exec_append_active n din s hn hf, respond_rsp .., ?_⟩
    rw [respond_core, appendCore_len, countBytes_toNat, lanes_length]
  · exact ⟨_, exec_eq_afterInstr _ s, len_of_rejected_append din h⟩
  · rw [bitLen_ofNat]
    simp

/-- A recorded error outlives every command of the port but INIT (R175). -/
theorem afterCommand_keeps_recorded_error {c : Command} {s : State} (hc : decode c ≠ .instr .init)
    (herr : s.core.err = true) (hcode : s.core.ecode ≠ 0) :
    (afterCommand c s).core.err = true ∧ (afterCommand c s).core.ecode = s.core.ecode := by
  obtain ⟨e, -, -, rejected⟩ | ⟨i, hi, -, -, performed⟩ := afterCommand_cases c s.core.fin
  · rw [rejected s rfl]
    exact ⟨rfl, if_neg hcode⟩
  · have not_init : i ≠ .init := by rintro rfl; exact hc hi
    rw [performed s rfl]
    exact ⟨(performedCore_err _ not_init).trans herr, performedCore_ecode _ not_init⟩

/-- Settles O21: the steps left are the idle one and the commands other than INIT. -/
theorem firstErrorStays : Obligations.FirstErrorStays := by
  intro s t herr hcode hstep no_reset no_commandReset no_init
  obtain ⟨-, rfl⟩ | ⟨rest, hs, -⟩ | ⟨c, rest, hs, -⟩ | ⟨c, rest, hs, rfl⟩ := step_cases hstep
  · exact ⟨herr, rfl⟩
  · exact absurd hs (no_reset rest)
  · exact absurd hs (no_commandReset c rest)
  · exact afterCommand_keeps_recorded_error (s := issue rest s) (no_init c rest hs) herr hcode

/-- A command other than INIT that leaves a clean status was performed, from a clean status. -/
theorem clean_of_clean_afterCommand {c : Command} {s : State} (hc : decode c ≠ .instr .init)
    (h : (afterCommand c s).clean) : s.clean ∧ answerCode s.core.fin c = .ok := by
  obtain ⟨e, -, -, rejected⟩ | ⟨i, hi, -, code, performed⟩ := afterCommand_cases c s.core.fin
  · simp [rejected s rfl, State.clean] at h
  · have not_init : i ≠ .init := by rintro rfl; exact hc hi
    rw [performed s rfl] at h
    exact ⟨(performedCore_err _ not_init).symm.trans h, code⟩

/-- A run of one step more is a step and the rest of the run. -/
theorem runFor_succ {s t : State} (k : Nat) (h : step s = .next t) : runFor (k + 1) s = runFor k t := by
  simp [runFor, h]

theorem runFor_succ_inv {s u : State} {k : Nat} (h : runFor (k + 1) s = .next u) :
    ∃ t, step s = .next t ∧ runFor k t = .next u := by
  cases hs : step s with
  | next t => exact ⟨t, rfl, runFor_succ k hs ▸ h⟩
  | fault r => cases r
  | refused r => simp [runFor, hs] at h

/-- A run of commands other than INIT with a clean status at its end began with a clean one and rejected none. -/
theorem clean_run {k : Nat} {s t : State} (hrun : runFor k s = .next t)
    (hcmds : ∀ x ∈ s.host.take k, ∃ c, x = .command c ∧ decode c ≠ .instr .init) (hclean : t.clean) :
    s.clean ∧ ∃ rs, t.rsp = s.rsp ++ rs ∧ ∀ r ∈ rs, r.code = 0 := by
  induction k generalizing s with
  | zero =>
    cases hrun
    exact ⟨hclean, [], by simp⟩
  | succ k ih =>
    obtain ⟨u, hstep, hrun⟩ := runFor_succ_inv hrun
    cases hs : s.host with
    | nil =>
      rw [step_idle hs] at hstep
      cases hstep
      exact ih hrun (by simp [hs])
    | cons x rest =>
      rw [hs, List.take_succ_cons, List.forall_mem_cons] at hcmds
      obtain ⟨⟨c, rfl, hc⟩, hcmds⟩ := hcmds
      rw [step_command_next hs] at hstep
      cases hstep
      obtain ⟨u_clean, rs, hrs, hok⟩ := ih hrun (by simpa using hcmds)
      obtain ⟨s_clean, code⟩ := clean_of_clean_afterCommand (s := issue rest s) hc u_clean
      obtain ⟨data, hr⟩ := afterCommand_rsp c (issue rest s)
      refine ⟨s_clean, _ :: rs, by rw [hrs, hr, List.append_assoc]; rfl, List.forall_mem_cons.mpr ⟨?_, hok⟩⟩
      exact (bits_eq_zero _).mpr code

/-- Settles O22, by induction on the number of steps, from the clean end back. -/
theorem cleanRunRejectedNothing : Obligations.CleanRunRejectedNothing :=
  fun _ _ _ hrun hcmds hclean => (clean_run hrun hcmds hclean).2

/-- A known opcode other than APPEND is answered with a field error, or as its command is. -/
theorem answerCode_of_op {c : Command} {i : Instr} (fin : Bool) (ho : opNum c < 5) (ho2 : opNum c ≠ 2)
    (legal : rsvNum c = 0 → cntNum c = 0 → decode c = .instr i) :
    answerCode fin c = .eField ∨ answerCode fin c = (rejection fin i).getD .ok := by
  by_cases h : cntNum c ≠ 0 ∨ rsvNum c ≠ 0
  · exact .inl (answerCode_reject (decode_field_error ho ho2 h) fin)
  · exact .inr (answerCode_instr (legal (by omega) (by omega)) fin)

/-- APPEND is answered with a field error, with a phase error, or with 0. -/
theorem answerCode_append {c : Command} (fin : Bool) (ho : opNum c = 2) :
    answerCode fin c = .eField ∨ answerCode fin c = .eAppendFinal ∨ answerCode fin c = .ok := by
  by_cases h : 8 < cntNum c ∨ rsvNum c ≠ 0
  · exact .inl (answerCode_reject (decode_append_field_error ho h) fin)
  · have count_ok : ¬ 8 < cntNum c := fun hc => h (.inl hc)
    rw [answerCode_instr (decode_append ho (by omega) (by omega))]
    cases fin <;> simp [rejection, Nat.mod_eq_of_lt (cntNum_lt c), count_ok]

/-- FINALIZE answers 0, or 4 when it comes a second time. -/
theorem code_finalize (fin : Bool) :
    ((rejection fin .finalize).getD .ok).bits = 0 ∨ ((rejection fin .finalize).getD .ok).bits = 4 := by
  cases fin <;> decide

/-- READ_DIGEST answers 0, or 5 when it comes too early. -/
theorem code_rddig (fin : Bool) :
    ((rejection fin .rddig).getD .ok).bits = 0 ∨ ((rejection fin .rddig).getD .ok).bits = 5 := by
  cases fin <;> decide

/-- Settles O28: the code of the one response, opcode by opcode. -/
theorem responseCodesOfEachCommand : Obligations.ResponseCodesOfEachCommand := by
  intro s t c rest r hs hstep hr
  rw [step_command_next hs] at hstep
  cases hstep
  obtain ⟨data, hr'⟩ := afterCommand_rsp c (issue rest s)
  obtain rfl : _ = r := by simpa using hr'.symm.trans hr
  have op_code : ∀ {i}, opNum c < 5 → opNum c ≠ 2 → (rsvNum c = 0 → cntNum c = 0 → decode c = .instr i) →
      (answerCode s.core.fin c).bits = 2 ∨
      (answerCode s.core.fin c).bits = ((rejection s.core.fin i).getD .ok).bits := fun ho ho2 legal =>
    (answerCode_of_op s.core.fin ho ho2 legal).imp (congrArg Code.bits) (congrArg Code.bits)
  refine ⟨?_, fun ho => ?_, fun ho => ?_, fun ho => ?_, fun ho => ?_⟩
  · rintro (ho | ho)
    · exact (op_code (by omega) (by omega) (decode_status ho)).symm
    · exact (op_code (by omega) (by omega) (decode_init ho)).symm
  · rcases answerCode_append s.core.fin ho with h | h | h <;> simp [h, Code.bits]
  · rcases op_code (by omega) (by omega) (decode_finalize ho) with h | h
    · exact .inr (.inl h)
    · exact (code_finalize s.core.fin).imp h.trans (.inr ∘ h.trans)
  · rcases op_code (by omega) (by omega) (decode_rddig ho) with h | h
    · exact .inr (.inl h)
    · exact (code_rddig s.core.fin).imp h.trans (.inr ∘ h.trans)
  · exact congrArg Code.bits (answerCode_reject (decode_of_five_le_op ho) _)

end Sys2Proof.Machine
end

section
/-!
PROOF. What a response can show of the core's state (spec rules R28, R30, R32, R96, R135): two states of one phase take
a command alike, so their responses differ only where a performed command reads what differs.
-/

namespace Sys2Proof.Machine

/-- A command taken in two states of one phase: both reject it with one code, or both perform it. -/
theorem two_steps {s s' : State} {c : Command} {rest : List HostInput} (hs : s.host = .command c :: rest)
    (hs' : s'.host = .command c :: rest) (phase : s'.core.fin = s.core.fin) :
    (∃ e, e ≠ .ok ∧ answerCode s.core.fin c = e ∧ step s = .next (reject e (issue rest s)) ∧
      step s' = .next (reject e (issue rest s'))) ∨
    (∃ i, decode c = .instr i ∧ rejection s.core.fin i = none ∧ step s = .next (perform i (issue rest s)) ∧
      step s' = .next (perform i (issue rest s'))) := by
  rw [step_command_next hs, step_command_next hs']
  obtain ⟨e, not_ok, code, rejected⟩ | ⟨i, hi, hperf, -, performed⟩ := afterCommand_cases c s.core.fin
  · rw [rejected (issue rest s) rfl, rejected (issue rest s') phase]
    exact .inl ⟨e, not_ok, code, rfl, rfl⟩
  · rw [performed (issue rest s) rfl, performed (issue rest s') phase]
    exact .inr ⟨i, hi, hperf, rfl, rfl⟩

/-- Settles O23: the sticky bits enter no rejection, no performed core and no data but that of STATUS. -/
theorem errorBitsDoNotBlock : Obligations.ErrorBitsDoNotBlock := by
  intro s err ecode c rest hs
  obtain ⟨e, -, -, hstep, hstep'⟩ | ⟨i, hi, -, hstep, hstep'⟩ :=
    two_steps (s' := { s with core := { s.core with err := err, ecode := ecode } }) hs hs rfl
  · exact ⟨_, _, hstep, hstep', rfl, rfl, rfl, rfl, fun _ => rfl⟩
  · refine ⟨_, _, hstep, hstep', ?_⟩
    cases i with
    | status => exact ⟨rfl, rfl, rfl, rfl, absurd hi⟩
    | _ => exact ⟨rfl, rfl, rfl, rfl, fun _ => rfl⟩

/-- In the FINALIZED phase the commands performed are STATUS, READ_DIGEST and INIT. -/
theorem performed_when_final {i : Instr} (h : rejection true i = none) : i = .status ∨ i = .rddig ∨ i = .init := by
  cases i with
  | status => exact .inl rfl
  | init => exact .inr (.inr rfl)
  | append n din => simp [rejection_append_eq_none] at h
  | finalize => simp [rejection_finalize_eq_none] at h
  | rddig => exact .inr (.inl rfl)

/-- Settles O24: what is performed in the FINALIZED phase, INIT aside, writes nothing of the core. -/
theorem digestImmutable : Obligations.DigestImmutable := by
  intro s c rest hf hs hc
  have kept : (afterCommand c (issue rest s)).core.st = s.core.st ∧
      (afterCommand c (issue rest s)).core.fin = true := by
    obtain ⟨e, -, -, rejected⟩ | ⟨i, hi, hperf, -, performed⟩ := afterCommand_cases c true
    · rw [rejected (issue rest s) hf]
      exact ⟨rfl, hf⟩
    · rw [performed (issue rest s) hf]
      obtain rfl | rfl | rfl := performed_when_final hperf
      · exact ⟨rfl, hf⟩
      · exact ⟨rfl, hf⟩
      · exact absurd hi hc
  obtain ⟨hst, hfin⟩ := kept
  exact ⟨_, _, step_command_next hs, hst, hfin, exec_rddig_final _ hfin, by rw [respond_rsp, hst]; rfl⟩

/-- Settles O25: in the ACTIVE phase READ_DIGEST is rejected, and of the rest only FINALIZE answers with more than the
status. -/
theorem activeStateHidden : Obligations.ActiveStateHidden := by
  intro s st buf len c rest hf hs hc
  obtain ⟨e, -, -, hstep, hstep'⟩ | ⟨i, hi, hperf, hstep, hstep'⟩ :=
    two_steps (s' := { s with core := { s.core with st := st, buf := buf, len := len } }) hs hs rfl
  · exact ⟨_, _, hstep, hstep', rfl, hf, hf, rfl, rfl⟩
  · refine ⟨_, _, hstep, hstep', ?_⟩
    cases i with
    | status => exact ⟨rfl, hf, hf, rfl, rfl⟩
    | init => exact ⟨rfl, rfl, rfl, rfl, rfl⟩
    | append n din => exact ⟨rfl, hf, hf, rfl, rfl⟩
    | finalize => exact absurd hi hc
    | rddig => simp [rejection_rddig_eq_none, hf] at hperf

/-- Settles O26: in the FINALIZED phase the commands performed read the status and `ST` only, and INIT writes `BUF` and
`LEN` anew. -/
theorem finalizedTailUnobservable : Obligations.FinalizedTailUnobservable := by
  intro s buf len c rest hf hs
  obtain ⟨e, not_ok, code, hstep, hstep'⟩ | ⟨i, hi, hperf, hstep, hstep'⟩ :=
    two_steps (s' := { s with core := { s.core with buf := buf, len := len } }) hs hs rfl
  · have not_init : decode c ≠ .instr .init := fun hc => not_ok (code.symm.trans (answerCode_instr hc _))
    exact ⟨_, _, hstep, hstep', rfl, rfl, fun hc => absurd hc not_init⟩
  · refine ⟨_, _, hstep, hstep', ?_⟩
    rw [hf] at hperf
    obtain rfl | rfl | rfl := performed_when_final hperf
    · exact ⟨rfl, rfl, fun hc => nomatch hi.symm.trans hc⟩
    · exact ⟨rfl, rfl, fun hc => nomatch hi.symm.trans hc⟩
    · exact ⟨rfl, rfl, fun _ => rfl⟩

/-- Counting at most 8 more bytes, but one at least, gives another length. -/
theorem countBytes_ne {len : Dword} {n : Nat} (h : n % 2 ^ 64 ≠ 0) : countBytes len n ≠ len := by
  intro same
  have counted := countBytes_toNat len n
  have bound := len.isLt
  rw [same] at counted
  omega

/-- Settles O29: the commands that write nothing, those whose repetition does, and that two of at most 8 bytes are short
of a turn of the counter. -/
theorem repeatedCommands : Obligations.RepeatedCommands := by
  refine ⟨fun s => ⟨_, exec_status s, rfl⟩, fun s hf => ⟨_, exec_rddig_final s hf, rfl⟩,
    fun s hf => ⟨_, execRddig_active s hf, rejected_reject .eReadEarly s⟩,
    fun s => ⟨_, _, exec_init s, exec_init _, rfl⟩, ?_, ?_, ?_⟩
  · intro n din s hf hn0 hn
    refine ⟨_, _, exec_append_active n din s hn hf, exec_append_active n din _ hn hf, ?_⟩
    have once : n.toNat % 2 ^ 64 ≠ 0 := by omega
    have twice : (n.toNat + n.toNat) % 2 ^ 64 ≠ 0 := by omega
    simp only [respond_core, appendCore_len, lanes_length]
    refine ⟨countBytes_ne once, countBytes_ne once, ?_⟩
    rw [countBytes_countBytes]
    exact countBytes_ne twice
  · intro din s hf hb
    exact ⟨_, exec_append_active 0 din s (by decide) hf, appendCore_nil hb⟩
  · intro s hf
    exact ⟨_, _, exec_finalize_active s hf, exec_finalize_final _ rfl, rejected_reject .eFinalTwice _⟩

end Sys2Proof.Machine
end

section
/-!
PROOF. Bytes and words (spec rules R13, R43, R67, R132). The words `LE32`, `DIN` and `RSP_DATA` are one thing at three
widths: byte `k` of a list at bits `8k+7:8k`.
-/

namespace Sys2Proof.Machine

/-- The word of width `w` whose byte at bits `8k+7:8k` is byte `k`. -/
def packLE (w : Nat) : List Byte → BitVec w
  | [] => 0
  | b :: bs => b.setWidth w ||| packLE w bs <<< 8

/-- A host's little-endian word is such a word of 64 bits. -/
theorem wordLE_eq_packLE (bs : List Byte) : wordLE bs = packLE 64 bs := by
  induction bs with
  | nil => rfl
  | cons b bs ih => rw [wordLE, packLE, ih]

/-- The response data is such a word of 128 bits. -/
theorem packBytes_eq_packLE (bs : List Byte) : packBytes bs = packLE 128 bs := by
  induction bs with
  | nil => rfl
  | cons b bs ih => rw [packBytes, packLE, ih]

/-- `LE32` is such a word of 32 bits. -/
theorem le32_eq_packLE (b0 b1 b2 b3 : Byte) : le32 b0 b1 b2 b3 = packLE 32 [b0, b1, b2, b3] := by
  simp only [le32, packLE, BitVec.shiftLeft_or_distrib, ← BitVec.shiftLeft_add, BitVec.or_assoc]
  simp

/-- Bit `k` of a packed word is bit `k mod 8` of byte `k / 8`. -/
theorem packLE_getLsbD {w : Nat} (bs : List Byte) {k : Nat} (hk : k < w) :
    (packLE w bs).getLsbD k = (bs.getD (k / 8) 0).getLsbD (k % 8) := by
  induction bs generalizing k with
  | nil => simp [packLE]
  | cons b bs ih =>
    rw [packLE, BitVec.getLsbD_or, BitVec.getLsbD_setWidth, BitVec.getLsbD_shiftLeft]
    rcases Nat.lt_or_ge k 8 with low | high
    · simp [hk, low, Nat.div_eq_of_lt low, Nat.mod_eq_of_lt low]
    · have next_byte : k / 8 = (k - 8) / 8 + 1 := by omega
      have same_bit : (k - 8) % 8 = k % 8 := by omega
      have past_first : b.getLsbD k = false := BitVec.getLsbD_of_ge b k high
      rw [ih (k := k - 8) (by omega), next_byte, List.getD_cons_succ, same_bit, past_first]
      simp [hk, Nat.not_lt.mpr high]

/-- Byte `k` is read back from its bits. -/
theorem packLE_extractLsb' {w : Nat} (bs : List Byte) {k : Nat} (hk : 8 * k + 8 ≤ w) :
    (packLE w bs).extractLsb' (8 * k) 8 = bs.getD k 0 := by
  ext i hi
  have byte : (8 * k + i) / 8 = k := by omega
  have bit : (8 * k + i) % 8 = i := by omega
  rw [BitVec.getElem_extractLsb', packLE_getLsbD bs (by omega), byte, bit, BitVec.getLsbD_eq_getElem hi]

/-- All the bytes are read back in order. -/
theorem unpack_packLE {w : Nat} (bs : List Byte) (h : 8 * bs.length ≤ w) :
    ((List.range bs.length).map fun k => (packLE w bs).extractLsb' (8 * k) 8) = bs := by
  apply List.ext_getElem (by simp)
  intro k hk hk'
  rw [List.getElem_map, List.getElem_range, packLE_extractLsb' bs (by omega), List.getD_eq_getElem bs 0 hk']

/-- Packing the bytes of a word gives the word. -/
theorem packLE_unpack {n : Nat} (x : BitVec (8 * n)) :
    packLE (8 * n) ((List.range n).map fun k => x.extractLsb' (8 * k) 8) = x := by
  ext k hk
  have byte_exists : k / 8 < n := by omega
  have bit_position : 8 * (k / 8) + k % 8 = k := by omega
  have bit_of_byte : k % 8 < 8 := by omega
  rw [← BitVec.getLsbD_eq_getElem hk, packLE_getLsbD _ hk, ← BitVec.getLsbD_eq_getElem hk]
  simp [List.getD_eq_getElem?_getD, byte_exists, bit_of_byte, bit_position]

/-- Packing two lists: the second stands above the first. -/
theorem packLE_append (w : Nat) (bs bs' : List Byte) :
    packLE w (bs ++ bs') = packLE w bs ||| packLE w bs' <<< (8 * bs.length) := by
  induction bs with
  | nil => simp [packLE]
  | cons b bs ih =>
    rw [List.cons_append, packLE, packLE, ih, BitVec.shiftLeft_or_distrib, ← BitVec.shiftLeft_add, BitVec.or_assoc,
      List.length_cons, Nat.mul_succ]

/-- Bits above the last byte are 0. -/
theorem packLE_getLsbD_of_ge {w : Nat} {bs : List Byte} {k : Nat} (h : 8 * bs.length ≤ k) :
    (packLE w bs).getLsbD k = false := by
  rcases Nat.lt_or_ge k w with inside | outside
  · rw [packLE_getLsbD bs inside, List.getD_eq_default _ _ (by omega)]
    exact BitVec.getLsbD_zero
  · exact BitVec.getLsbD_of_ge _ _ outside

/-- A packed word as a number is below `2 ^ 8` to the number of bytes. -/
theorem packLE_toNat_lt (w : Nat) (bs : List Byte) : (packLE w bs).toNat < 2 ^ (8 * bs.length) :=
  Nat.lt_pow_two_of_testBit _ fun k hk => by
    rw [BitVec.testBit_toNat, packLE_getLsbD_of_ge hk]

/-- The first byte of a packed word is its least significant one. -/
theorem packLE_toNat_cons {w : Nat} (b : Byte) (bs : List Byte) (h : 8 * (bs.length + 1) ≤ w) :
    (packLE w (b :: bs)).toNat = b.toNat + 2 ^ 8 * (packLE w bs).toNat := by
  have fits : 2 ^ 8 * (packLE w bs).toNat < 2 ^ w := by
    calc 2 ^ 8 * (packLE w bs).toNat < 2 ^ 8 * 2 ^ (8 * bs.length) := by
          have := packLE_toNat_lt w bs; omega
      _ = 2 ^ (8 * (bs.length + 1)) := by rw [← Nat.pow_add]; congr 1; omega
      _ ≤ 2 ^ w := Nat.pow_le_pow_right (by decide) h
  have byte_fits : b.toNat < 2 ^ w := Nat.lt_of_lt_of_le b.isLt (Nat.pow_le_pow_right (by decide) (by omega))
  rw [packLE, BitVec.toNat_or, BitVec.toNat_setWidth, Nat.mod_eq_of_lt byte_fits, BitVec.toNat_shiftLeft,
    Nat.shiftLeft_eq, Nat.mul_comm, Nat.mod_eq_of_lt fits, Nat.or_comm, ← Nat.two_pow_add_eq_or_of_lt b.isLt,
    Nat.add_comm]

/-- A word fills the low half or less of a wider packed word. -/
theorem packLE_bytes32 (x : Word) : packLE 128 (bytes32 x) = x.setWidth 128 := by
  apply BitVec.eq_of_getLsbD_eq
  intro k hk
  have narrow : packLE 32 (bytes32 x) = x := packLE_unpack (n := 4) x
  rw [BitVec.getLsbD_setWidth]
  rcases Nat.lt_or_ge k 32 with inside | outside
  · rw [packLE_getLsbD _ hk, ← packLE_getLsbD _ inside, narrow]
    simp [hk]
  · rw [packLE_getLsbD_of_ge (by simpa using outside), BitVec.getLsbD_of_ge x k outside, Bool.and_false]

/-- Settles O2: the four words and their bytes, as R22 writes them. -/
theorem initialValueWords : Obligations.InitialValueWords := by
  unfold Obligations.InitialValueWords
  decide

/-- `LE32` as a number (R13). -/
theorem le32_toNat (b0 b1 b2 b3 : Byte) : (le32 b0 b1 b2 b3).toNat =
    b0.toNat + 2 ^ 8 * b1.toNat + 2 ^ 16 * b2.toNat + 2 ^ 24 * b3.toNat := by
  rw [le32_eq_packLE, packLE_toNat_cons _ _ (by simp), packLE_toNat_cons _ _ (by simp),
    packLE_toNat_cons _ _ (by simp), packLE_toNat_cons _ _ (by simp), show (packLE 32 []).toNat = 0 from rfl]
  omega

/-- Settles O35: the number of `LE32`, its two inverses as packing and unpacking, and `bytes64` as lanes 0 to 7. -/
theorem littleEndianConversions : Obligations.LittleEndianConversions := by
  refine ⟨le32_toNat, fun w => ⟨_, _, _, _, rfl, ?_⟩, fun b0 b1 b2 b3 => ?_, fun v => ⟨rfl, fun k hk => ?_⟩⟩
  · rw [le32_eq_packLE]
    exact packLE_unpack (n := 4) w
  · rw [le32_eq_packLE]
    exact unpack_packLE [b0, b1, b2, b3] (by simp)
  · rw [show bytes64 v = lanes v 8 from rfl, lanes_getElem? v hk, lane_eq_ofNat]

/-- Settles O36: reading RSP_DATA undoes the packing, and packing the words one above the other gives the number. -/
theorem digestPackedByLanes : Obligations.DigestPackedByLanes := by
  refine fun st => ⟨digestBytes_length st, ?_, ?_, rfl, rfl⟩
  · rw [digestData, packBytes_eq_packLE]
    exact unpack_packLE (digestBytes st) (by simp)
  · rw [digestData, packBytes_eq_packLE, digestBytes]
    simp only [packLE_append, packLE_bytes32, List.length_append, bytes32_length]

/-- The lanes of a host's little-endian word are its bytes. -/
theorem lanes_wordLE {bs : List Byte} (h : bs.length ≤ 8) : lanes (wordLE bs) bs.length = bs := by
  rw [wordLE_eq_packLE]
  exact unpack_packLE bs (by omega)

/-- Settles O37: the big-endian word is the little-endian word of the reversed bytes. -/
theorem hostWordOrder : Obligations.HostWordOrder := by
  intro bs h
  constructor
  · simpa [h] using lanes_wordLE (bs := bs) h.le
  · simpa [h, wordBE] using lanes_wordLE (bs := bs.reverse) (by simp [h])

end Sys2Proof.Machine
end

section
/-!
PROOF. The compressor (spec rules R11, R82 to R85, R88, R89, R91, R95): its bit functions, its tables, and RFC 1321's
way of writing the steps.
-/

namespace Sys2Proof.Machine

/-- Settles O39: each function on one bit is a truth table. -/
theorem roundFunctionsBitwise : Obligations.RoundFunctionsBitwise := by
  intro x y z t ht
  simp only [roundF, roundG, roundH, roundI, BitVec.getLsbD_or, BitVec.getLsbD_and, BitVec.getLsbD_xor,
    BitVec.getLsbD_not, ht, decide_true, Bool.true_and]
  generalize x.getLsbD t = a
  generalize y.getLsbD t = b
  generalize z.getLsbD t = c
  revert a b c
  decide

/-- A bit that is not shifted out goes up by the amount; one that is comes in again from below. -/
theorem rotl32_getLsbD (x : Word) {s t : Nat} (hs : 1 ≤ s) (hs' : s ≤ 31) (ht : t < 32) :
    (rotl32 x s).getLsbD ((t + s) % 32) = x.getLsbD t := by
  rw [rotl32, BitVec.getLsbD_or, BitVec.getLsbD_shiftLeft, BitVec.getLsbD_ushiftRight]
  rcases Nat.lt_or_ge (t + s) 32 with inside | around
  · have position : (t + s) % 32 = t + s := Nat.mod_eq_of_lt inside
    have low_clear : x.getLsbD (32 - s + (t + s)) = false := BitVec.getLsbD_of_ge _ _ (by omega)
    simp [position, low_clear, inside]
  · have position : (t + s) % 32 = t + s - 32 := by omega
    have below : t + s - 32 < s := by omega
    have source : 32 - s + (t + s - 32) = t := by omega
    simp [position, below, source]

/-- Settles O40: the rotation, and the 64 amounts. -/
theorem rotationMovesBits : Obligations.RotationMovesBits :=
  ⟨fun x _ _ hs hs' ht => rotl32_getLsbD x hs hs' ht, by decide⟩

/-- Settles O41: the tables are finite. -/
theorem stepTablesOfEachRound : Obligations.StepTablesOfEachRound := by
  unfold Obligations.StepTablesOfEachRound
  decide +kernel

/-- RFC 1321's operation of step `i` is the word the rotating form computes: only the order of two summands differs. -/
theorem rfcOp_eq (x : List Word) (w : Chain) (i : Nat) :
    rfcOp x i w.a w.b w.c w.d = w.b + rotl32 (stepSum x w i) (rotAmount i) := by
  rw [rfcOp, stepSum, add_right_comm]

/-- One rotating step in RFC 1321's words. -/
theorem compressStep_eq (x : List Word) (w : Chain) (i : Nat) :
    compressStep x w i = ⟨w.d, rfcOp x i w.a w.b w.c w.d, w.b, w.c⟩ := by
  rw [rfcOp_eq, compressStep]

/-- Four rotating steps bring every register back to its name. -/
theorem rfcFour_eq_four_steps (x : List Word) (w : Chain) (j : Nat) :
    rfcFour x w j = compressStep x (compressStep x (compressStep x (compressStep x w (4 * j)) (4 * j + 1))
      (4 * j + 2)) (4 * j + 3) := by
  simp only [compressStep_eq, rfcFour]

/-- The first `4n` rotating steps are the first `n` fixed-name groups. -/
theorem runSteps_four_mul (x : List Word) (st : Chain) (n : Nat) :
    runSteps x st (4 * n) = (List.range n).foldl (rfcFour x) st := by
  induction n with
  | zero => rfl
  | succ n ih =>
    rw [List.range_succ, List.foldl_append, ← ih, List.foldl_cons, List.foldl_nil, rfcFour_eq_four_steps]
    simp [runSteps, Nat.mul_succ, List.range_succ]

/-- Settles O42: 64 steps are 16 groups. -/
theorem compressEqualsFixedNameForm : Obligations.CompressEqualsFixedNameForm := by
  intro st blk
  rw [compress, rfcCompress, ← runSteps_four_mul]

/-- Step 0 of the empty-message block (R91). -/
theorem compressStep_empty_block : compressStep (blockWords (0x80 :: zeros 63)) Chain.iv 0 =
    ⟨0x10325476, 0xA5202774, 0xEFCDAB89, 0x98BADCFE⟩ := by decide +kernel

/-- The compression of the empty-message block (R95). -/
theorem compress_empty_block :
    compress Chain.iv (0x80 :: zeros 63) = ⟨0xD98C1DD4, 0x04B2008F, 0x980980E9, 0x7E42F8EC⟩ := by decide +kernel

/-- The compression with every word and byte all ones (V13, row 3). -/
theorem compress_all_ones :
    compress ⟨0xFFFFFFFF, 0xFFFFFFFF, 0xFFFFFFFF, 0xFFFFFFFF⟩ (List.replicate 64 0xFF) =
      ⟨0x6CBA9129, 0x29FFD12A, 0x8B9BB7D3, 0xA9A0A3C1⟩ := by decide +kernel

/-- Settles O43. -/
theorem compressWorkedExamples : Obligations.CompressWorkedExamples :=
  ⟨compressStep_empty_block, compress_empty_block, compress_all_ones⟩

end Sys2Proof.Machine
end

section
/-!
PROOF. Host programs (spec rules R72, R151, R152): feeding a byte sequence, and the one-shot digest.
-/

namespace Sys2Proof.Machine

/-- The chunks `feed` sends, one APPEND each: one empty chunk for the empty sequence (R72). -/
def feedChunks (m : List Byte) : List (List Byte) := if m = [] then [[]] else chunks8 m.length m

theorem feed_eq_map_appendB (m : List Byte) : feed m = (feedChunks m).map appendB := by
  unfold feed feedChunks
  split <;> rfl

/-- With enough turns the chunks of 8 are short, and together the whole sequence. -/
theorem chunks8_spec (k : Nat) (m : List Byte) (h : m.length ≤ k) :
    (∀ bs ∈ chunks8 k m, bs.length ≤ 8) ∧ (chunks8 k m).flatten = m := by
  induction k generalizing m with
  | zero =>
    obtain rfl : m = [] := List.length_eq_zero_iff.mp (Nat.le_zero.mp h)
    simp [chunks8]
  | succ k ih =>
    cases m with
    | nil => simp [chunks8]
    | cons b bs =>
      have rest_bounded : ((b :: bs).drop 8).length ≤ k := by
        rw [List.length_drop]; omega
      obtain ⟨short, joined⟩ := ih _ rest_bounded
      rw [chunks8, List.forall_mem_cons, List.flatten_cons, joined]
      exact ⟨⟨List.length_take_le 8 _, short⟩, List.take_append_drop 8 _⟩

theorem feedChunks_length_le {m bs : List Byte} (h : bs ∈ feedChunks m) : bs.length ≤ 8 := by
  unfold feedChunks at h
  split at h
  · simp [List.mem_singleton.mp h]
  · exact (chunks8_spec m.length m le_rfl).1 bs h

theorem feedChunks_flatten (m : List Byte) : (feedChunks m).flatten = m := by
  unfold feedChunks
  split
  next empty => simp [empty]
  next => exact (chunks8_spec m.length m le_rfl).2

/-- There is a first chunk, also of nothing. -/
theorem feedChunks_ne_nil (m : List Byte) : feedChunks m ≠ [] := by
  intro none_sent
  have joined := feedChunks_flatten m
  rw [none_sent, List.flatten_nil] at joined
  simp [feedChunks, ← joined] at none_sent

/-- Appending the chunks of a sequence in turn is appending the sequence. -/
theorem foldl_feedChunks (m : List Byte) (c : CoreState) :
    (feedChunks m).foldl (fun c bs => appendCore bs c) c = appendCore m c := by
  cases h : feedChunks m with
  | nil => exact absurd h (feedChunks_ne_nil m)
  | cons bs bss => rw [foldl_appendCore_cons, ← h, feedChunks_flatten]

/-- The state after `n` commands answered OK that leave the core `c` and the inputs `rest`. -/
def afterOk (c : CoreState) (n : Nat) (rest : List HostInput) (s : State) : State :=
  ⟨c, s.rsp ++ List.replicate n ⟨0, 0⟩, rest, s.hostIndex + n⟩

/-- One more command before `n`. -/
theorem afterOk_succ (c c' : CoreState) (n : Nat) (rest rest' : List HostInput) (s : State) :
    afterOk c n rest (afterOk c' 1 rest' s) = afterOk c (n + 1) rest s := by
  simp [afterOk, List.replicate_succ, Nat.add_right_comm, Nat.add_assoc]

/-- The step on one `append.b` in the ACTIVE phase (R72). -/
theorem step_appendB {s : State} {bs : List Byte} {rest : List HostInput} (hf : s.core.fin = false)
    (hbs : bs.length ≤ 8) (hs : s.host = .command (appendB bs) :: rest) :
    step s = .next (afterOk (appendCore bs s.core) 1 rest s) := by
  have count : (BitVec.ofNat 4 bs.length).toNat = bs.length := Nat.mod_eq_of_lt (by omega)
  have decoded : decode (appendB bs) = .instr (.append (BitVec.ofNat 4 bs.length) (wordLE bs)) :=
    decode_encode_append _ (by omega)
  rw [step_command s _ rest hs, serve_instr _ _ _ decoded, exec_append_active _ _ (issue rest s) (by omega) hf, count,
    lanes_wordLE hbs]
  rfl

/-- The run of a list of `append.b` in the ACTIVE phase. -/
theorem runFor_appendB {bss : List (List Byte)} {s : State} {rest : List HostInput} (hf : s.core.fin = false)
    (hbss : ∀ bs ∈ bss, bs.length ≤ 8) (hs : s.host = (bss.map appendB).map .command ++ rest) :
    runFor bss.length s =
      .next (afterOk (bss.foldl (fun c bs => appendCore bs c) s.core) bss.length rest s) := by
  induction bss generalizing s with
  | nil =>
    obtain rfl : s.host = rest := hs
    simp [runFor, afterOk]
  | cons bs bss ih =>
    rw [List.forall_mem_cons] at hbss
    obtain ⟨hbs, hbss⟩ := hbss
    rw [List.length_cons, runFor_succ _ (step_appendB hf hbs hs), ih (by exact hf) hbss rfl, afterOk_succ]
    rfl

/-- The run of `feed m` in the ACTIVE phase. -/
theorem runFor_feed {m : List Byte} {s : State} {rest : List HostInput} (hf : s.core.fin = false)
    (hs : s.host = (feed m).map .command ++ rest) :
    runFor (feed m).length s = .next (afterOk (appendCore m s.core) (feed m).length rest s) := by
  rw [feed_eq_map_appendB] at hs ⊢
  rw [List.length_map, runFor_appendB hf (fun _ => feedChunks_length_le) hs, foldl_feedChunks]

/-- Settles O48: the chunks of `m`, appended in turn. -/
theorem feedAppendsWholeSequence : Obligations.FeedAppendsWholeSequence :=
  fun _ _ _ hf hs => runFor_feed hf hs

/-- A run of `j + k` steps is one of `j` and one of `k`. -/
theorem runFor_add {s t : State} {j : Nat} (k : Nat) (h : runFor j s = .next t) : runFor (j + k) s = runFor k t := by
  induction j generalizing s with
  | zero =>
    cases h
    rw [Nat.zero_add]
  | succ j ih =>
    obtain ⟨u, hstep, hrun⟩ := runFor_succ_inv h
    rw [Nat.add_right_comm, runFor_succ _ hstep, ih hrun]

/-- The step on INIT, in every state. -/
theorem step_init {s : State} {rest : List HostInput} (hs : s.host = .command (encode .init) :: rest) :
    step s = .next (afterOk CoreState.reset 1 rest s) := by
  rw [step_command s _ rest hs, serve_instr _ _ _ (encodeThenDecode .init rfl), exec_init]
  rfl

/-- The step on FINALIZE in the ACTIVE phase. -/
theorem step_finalize {s : State} {rest : List HostInput} (hf : s.core.fin = false)
    (hs : s.host = .command (encode .finalize) :: rest) :
    step s = .next (perform .finalize (issue rest s)) := by
  rw [step_command s _ rest hs, serve_instr _ _ _ (encodeThenDecode .finalize rfl),
    exec_finalize_active (issue rest s) hf]
  rfl

/-- Settles O49: INIT starts the empty stream, the feed makes it `m`, and FINALIZE answers with its MD5. -/
theorem oneShotDigest : Obligations.OneShotDigest := by
  intro s m rest hs
  have steps : (digestScript m).length = (feed m).length + 1 + 1 := by simp [digestScript]
  have inputs : s.host = .command (encode .init) ::
      ((feed m).map .command ++ .command (encode .finalize) :: rest) := by simpa [digestScript] using hs
  have stream : Represents ⟨m, false⟩ (appendCore m CoreState.reset) := represents_appendCore m represents_fresh
  have digest := digestData_of_represents (represents_finalizeCore stream)
  rw [steps, runFor_succ _ (step_init inputs), runFor_add 1 (runFor_feed (by rfl) rfl), afterOk_succ,
    runFor_succ 0 (step_finalize (by rfl) rfl)]
  refine ⟨_, rfl, rfl, rfl, rfl, ?_⟩
  rw [← digest]
  rfl

end Sys2Proof.Machine
end

section
/-!
PROOF. The host's text (spec rules R71, R72, R156, R157), and several instances (R183).
-/

namespace Sys2Proof.Machine

/-- Settles O50: fixed lines, each assembled. -/
theorem commandTextEncodes : Obligations.CommandTextEncodes := by
  unfold Obligations.CommandTextEncodes
  decide +kernel

/-- A hexadecimal digit of either case reads as its number. -/
theorem hexValue_hexDigit : ∀ (upper : Bool) (n : Nat), n < 16 → hexValue (hexDigit upper n) = some n := by decide

/-- The two cases of a digit differ in letter case only. -/
theorem toLower_hexDigit : ∀ n, n < 16 → (hexDigit true n).toLower = hexDigit false n := by decide

/-- The two digits of a byte parse back to it. -/
theorem parseHex_digits (upper : Bool) (b : Byte) (cs : List Char) :
    parseHex (hexDigit upper (b.toNat / 16) :: hexDigit upper (b.toNat % 16) :: cs) = (parseHex cs).map (b :: ·) := by
  have hb := b.isLt
  have digits : 16 * (b.toNat / 16) + b.toNat % 16 = b.toNat := Nat.div_add_mod ..
  rw [parseHex, hexValue_hexDigit upper _ (by omega), hexValue_hexDigit upper _ (by omega)]
  simp [digits]

theorem renderHex_cons (upper : Bool) (b : Byte) (bs : List Byte) :
    renderHex upper (b :: bs) =
      hexDigit upper (b.toNat / 16) :: hexDigit upper (b.toNat % 16) :: renderHex upper bs := rfl

theorem parseHex_renderHex (upper : Bool) (bs : List Byte) : parseHex (renderHex upper bs) = some bs := by
  induction bs with
  | nil => rfl
  | cons b bs ih => rw [renderHex_cons, parseHex_digits, ih, Option.map_some]

theorem renderHex_length (upper : Bool) (bs : List Byte) : (renderHex upper bs).length = 2 * bs.length := by
  induction bs with
  | nil => rfl
  | cons b bs ih => rw [renderHex_cons, List.length_cons, List.length_cons, ih, List.length_cons]; omega

theorem map_toLower_renderHex (bs : List Byte) : (renderHex true bs).map Char.toLower = renderHex false bs := by
  induction bs with
  | nil => rfl
  | cons b bs ih =>
    have hb := b.isLt
    rw [renderHex_cons, List.map_cons, List.map_cons, ih, toLower_hexDigit _ (by omega), toLower_hexDigit _ (by omega),
      renderHex_cons]

/-- Settles O51: byte by byte. -/
theorem hexRoundTrip : Obligations.HexRoundTrip := fun dg =>
  ⟨fun upper => ⟨parseHex_renderHex upper dg, renderHex_length upper dg⟩, map_toLower_renderHex dg⟩

/-- Where none has that number, no step is taken. -/
theorem stepInstance_none {k : Nat} {ss : List State} (h : ss[k]? = none) : stepInstance k ss = .next ss := by
  simp [stepInstance, h]

/-- One that is there takes its own step. -/
theorem stepInstance_some {k : Nat} {ss : List State} {s t : State} (h : ss[k]? = some s) (hst : step s = .next t) :
    stepInstance k ss = .next (ss.set k t) := by simp [stepInstance, h, hst]

/-- Everything a step of one of several can do to the list of them. -/
theorem stepInstance_cases {k : Nat} {ss ts : List State} (h : stepInstance k ss = .next ts) :
    (ss[k]? = none ∧ ts = ss) ∨ ∃ s t, ss[k]? = some s ∧ step s = .next t ∧ ts = ss.set k t := by
  cases hs : ss[k]? with
  | none =>
    rw [stepInstance_none hs] at h
    cases h
    exact .inl ⟨rfl, rfl⟩
  | some s =>
    cases hst : step s with
    | next t =>
      rw [stepInstance_some hs hst] at h
      cases h
      exact .inr ⟨s, t, rfl, hst, rfl⟩
    | fault r => cases r
    | refused r => simp [stepInstance, hs, hst] at h

/-- A step of one leaves the others (R183). -/
theorem stepInstance_getElem?_ne {j k : Nat} {ss ts : List State} (h : stepInstance k ss = .next ts) (hj : j ≠ k) :
    ts[j]? = ss[j]? := by
  obtain ⟨-, rfl⟩ | ⟨s, t, -, -, rfl⟩ := stepInstance_cases h
  · rfl
  · exact List.getElem?_set_ne hj.symm

theorem stepInstance_length {k : Nat} {ss ts : List State} (h : stepInstance k ss = .next ts) :
    ts.length = ss.length := by
  obtain ⟨-, rfl⟩ | ⟨s, t, -, -, rfl⟩ := stepInstance_cases h
  · rfl
  · exact List.length_set

/-- Steps of two of them commute (R183). -/
theorem stepInstance_comm {j k : Nat} {ss ts us : List State} (hjk : j ≠ k) (hj : stepInstance j ss = .next ts)
    (hk : stepInstance k ts = .next us) :
    ∃ vs, stepInstance k ss = .next vs ∧ stepInstance j vs = .next us := by
  have k_kept : ts[k]? = ss[k]? := stepInstance_getElem?_ne hj hjk.symm
  obtain ⟨hnone, rfl⟩ | ⟨s, t, hsome, hst, rfl⟩ := stepInstance_cases hk
  · exact ⟨ss, stepInstance_none (k_kept ▸ hnone), hj⟩
  · have hstep_k := stepInstance_some (k_kept ▸ hsome) hst
    have j_kept : (ss.set k t)[j]? = ss[j]? := stepInstance_getElem?_ne hstep_k hjk
    refine ⟨_, hstep_k, ?_⟩
    obtain ⟨hnone, rfl⟩ | ⟨s', t', hsome', hst', rfl⟩ := stepInstance_cases hj
    · exact stepInstance_none (j_kept.trans hnone)
    · rw [stepInstance_some (j_kept.trans hsome') hst', List.set_comm _ _ hjk]

/-- Settles O52: the frame of a step of one, and that two commute. -/
theorem instancesIndependent : Obligations.InstancesIndependent :=
  ⟨fun _ _ _ h => ⟨stepInstance_length h, fun _ => stepInstance_getElem?_ne h⟩,
   fun _ _ _ _ _ hjk hj hk => stepInstance_comm hjk hj hk⟩

end Sys2Proof.Machine
end
